-- ==== Sys2Proof/Syntax.lean ====
section
/-!
DEFINITION. The decoded commands: the record of 30_encoding.md R60, one constructor per row of the opcode table.
-/
namespace Sys2Proof

/-- A command. Its operands are the unsigned integers of R60 and R65; `Instr.WellFormed` says that each fits its field.
DESIGN CHOICE (log entry 10): they are numbers, not bit fields. -/
inductive Instr where
  /-- `FIELD_ADD m, a, b` (R62, R82). -/
  | fieldAdd (m a b : Nat)
  /-- `FIELD_MUL_GEN m, a, j` (R63, R88). -/
  | fieldMulGen (m a j : Nat)
  /-- `ENCODE m, k, t, cap` (R64, R100). -/
  | encode (m k t cap : Nat)
  deriving DecidableEq, Repr

end Sys2Proof
end

