-- ==== Sys2Proof/WellFormed.lean ====
section
/-!
DEFINITION. Which commands have a word: every operand fits its field (30_encoding.md R61, R65, R69). An operand that is out of the range of
its meaning (a symbol of 16 or more, a width other than 4) is well-formed: it decodes and its command reports a status (R67).
-/
namespace Sys2Proof

/-- The 4-bit field `M` holds the operand (R61). -/
abbrev FitsM (n : Nat) : Prop := n < 2 ^ 4

/-- An 8-bit field `F0`, `F1` or `F2` holds the operand (R61). -/
abbrev FitsF (n : Nat) : Prop := n < 2 ^ 8

/-- Every operand fits its field of the command word, as a test. -/
def Instr.wellFormed (i : Instr) : Bool :=
  match i with
  | .fieldAdd m a b => decide (FitsM m ∧ FitsF a ∧ FitsF b)
  | .fieldMulGen m a j => decide (FitsM m ∧ FitsF a ∧ FitsF j)
  | .encode m k t cap => decide (FitsM m ∧ FitsF k ∧ FitsF t ∧ FitsF cap)

/-- Every operand fits its field of the command word. -/
abbrev Instr.WellFormed (i : Instr) : Prop := i.wellFormed = true

theorem Instr.wellFormed_fieldAdd {m a b : Nat} :
    (Instr.fieldAdd m a b).WellFormed ↔ m < 2 ^ 4 ∧ a < 2 ^ 8 ∧ b < 2 ^ 8 := by
  simp [Instr.WellFormed, Instr.wellFormed]

theorem Instr.wellFormed_fieldMulGen {m a j : Nat} :
    (Instr.fieldMulGen m a j).WellFormed ↔ m < 2 ^ 4 ∧ a < 2 ^ 8 ∧ j < 2 ^ 8 := by
  simp [Instr.WellFormed, Instr.wellFormed]

theorem Instr.wellFormed_encode {m k t cap : Nat} :
    (Instr.encode m k t cap).WellFormed ↔ m < 2 ^ 4 ∧ k < 2 ^ 8 ∧ t < 2 ^ 8 ∧ cap < 2 ^ 8 := by
  simp [Instr.WellFormed, Instr.wellFormed]

end Sys2Proof
end

