-- ==== Sys2Proof/Word.lean ====
section
/-!
DEFINITION. The words of the block: their widths (00_scope.md R9, 10_state.md R32). Every value is unsigned, bit 0 is the least significant (R10).
-/
namespace Sys2Proof

/-- A host-bus data word, and the command word (R9 `BUS_WIDTH`, R61). -/
abbrev Word := BitVec 32

/-- A host-bus word address (R9 `ADDR_WIDTH`). -/
abbrev Addr := BitVec 8

/-- The contents of one written cell (R9 `CELL_WIDTH`). -/
abbrev Byte := BitVec 8

/-- A symbol: an element of GF(2^4), an entry of the two tables (R13, R32). -/
abbrev Sym := BitVec 4

end Sys2Proof
end

