-- ==== Sys2Proof/Decode.lean ====
section
/-!
DEFINITION. Decoding and encoding of the command word (30_encoding.md). Every 32-bit word decodes to one command or is refused by name (R60, R70).
-/
namespace Sys2Proof

/-- Field `OP`, bits [31:28] (R61). -/
def opField (d : Word) : BitVec 4 := d.extractLsb' 28 4
/-- Field `M`, bits [27:24] (R61). -/
def mField (d : Word) : BitVec 4 := d.extractLsb' 24 4
/-- Field `F2`, bits [23:16] (R61). -/
def f2Field (d : Word) : BitVec 8 := d.extractLsb' 16 8
/-- Field `F1`, bits [15:8] (R61). -/
def f1Field (d : Word) : BitVec 8 := d.extractLsb' 8 8
/-- Field `F0`, bits [7:0] (R61). -/
def f0Field (d : Word) : BitVec 8 := d.extractLsb' 0 8

/-- Why a word is no command (R67). The block answers either with status `ILLEGAL_COMMAND`. -/
inductive DecodeError where
  /-- `OP` is 0x0 or 0x4 to 0xF. -/
  | reservedOpcode
  /-- `OP` is 0x1 or 0x2 and the reserved field `F2` is not 0. -/
  | reservedBits
  deriving DecidableEq, Repr

/-- What decoding answers. -/
inductive Decoded where
  | command (i : Instr)
  | illegal (e : DecodeError)
  deriving DecidableEq, Repr

/-- The decoder, the case analysis of `Execute(d)` (R60, R66, R67). -/
def decode (d : Word) : Decoded :=
  if opField d = 0x1#4 then
    if f2Field d = 0#8 then
      .command (.fieldAdd (mField d).toNat (f1Field d).toNat (f0Field d).toNat)
    else .illegal .reservedBits
  else if opField d = 0x2#4 then
    if f2Field d = 0#8 then
      .command (.fieldMulGen (mField d).toNat (f1Field d).toNat (f0Field d).toNat)
    else .illegal .reservedBits
  else if opField d = 0x3#4 then
    .command (.encode (mField d).toNat (f2Field d).toNat (f1Field d).toNat (f0Field d).toNat)
  else .illegal .reservedOpcode

/-- The word `{OP, M, F2, F1, F0}` (R61). -/
def packWord (op m : BitVec 4) (f2 f1 f0 : BitVec 8) : Word := op ++ m ++ f2 ++ f1 ++ f0

/-- The word of a well-formed command (R62, R63, R64). A command that is not well-formed has none (R69 refuses it): what this says of it means nothing. -/
def encode (i : Instr) : Word :=
  match i with
  | .fieldAdd m a b => packWord 0x1#4 (.ofNat 4 m) 0#8 (.ofNat 8 a) (.ofNat 8 b)
  | .fieldMulGen m a j => packWord 0x2#4 (.ofNat 4 m) 0#8 (.ofNat 8 a) (.ofNat 8 j)
  | .encode m k t cap => packWord 0x3#4 (.ofNat 4 m) (.ofNat 8 k) (.ofNat 8 t) (.ofNat 8 cap)

/-- The mask of a command's row of the opcode map (R66). -/
def rowMask (i : Instr) : Word :=
  match i with
  | .fieldAdd _ _ _ => 0xF0FF0000#32
  | .fieldMulGen _ _ _ => 0xF0FF0000#32
  | .encode _ _ _ _ => 0xF0000000#32

/-- The match value of a command's row of the opcode map (R66). -/
def rowMatch (i : Instr) : Word :=
  match i with
  | .fieldAdd _ _ _ => 0x10000000#32
  | .fieldMulGen _ _ _ => 0x20000000#32
  | .encode _ _ _ _ => 0x30000000#32

/-- The word of the opcode table whose lowest `nbits` bits are those of `w` and whose other bits are 0. -/
def tableWord (nbits w : Nat) : Word := .ofNat 32 (w % 2 ^ nbits)

/-- The command the decoder reads from a word numbered as the opcode table numbers it. A command is one whole bus word, so no byte order enters (R45, R68). -/
def decodeTableWord (nbits w : Nat) : Option Instr :=
  match decode (tableWord nbits w) with
  | .command i => some i
  | .illegal _ => none

end Sys2Proof
end

