-- ==== Sys2Proof/Config.lean ====
section
/-!
DEFINITION. What is fixed for the machine: the parameters of 00_scope.md R7 to R9, and the OPEN parameter `GEN_PROD` of R6, under exactly
the constraints R6 gives it.
-/
namespace Sys2Proof

/-- `M_SUPPORTED`, the one field width of the hardware (R3, R8). -/
abbrev Config.mSupported : Nat := 4

/-- `W`, the convolution width (R7). The depths `MSG_DEPTH = 16` and `PAR_DEPTH = W = 4` (R9), and `W` where it is a size, stand as numerals in the types. -/
abbrev Config.width : Nat := 4

/-- R6, constraint 2: `⊗`, the multiplication of a field GF(2^4) whose addition is exclusive-or, and the fixed coefficients
`c_0 … c_3` of the generator polynomial. Neither is given by the spec, so any field multiplication and any coefficients are admitted. -/
structure Config.Generator where
  /-- `a ⊗ b`. -/
  mul : Sym → Sym → Sym
  /-- the unit of `⊗`, which need not be the number 1. -/
  one : Sym
  /-- the inverse for `⊗`; its value at 0 means nothing. -/
  inv : Sym → Sym
  /-- `c_j`. -/
  coeff : Fin 4 → Sym
  one_ne_zero : one ≠ 0
  mul_comm : ∀ a b, mul a b = mul b a
  mul_assoc : ∀ a b c, mul (mul a b) c = mul a (mul b c)
  mul_one : ∀ a, mul a one = a
  mul_inv : ∀ a, a ≠ 0 → mul a (inv a) = one
  xor_mul : ∀ a b c, mul (a ^^^ b) c = mul a c ^^^ mul b c

/-- Multiplication by `α = 2` modulo `x^4 + x + 1`, of the non-normative example (95_test_vectors.md 2.0). -/
def Config.exampleDouble (a : Sym) : Sym :=
  if a.msb then (a <<< 1) ^^^ 3#4 else a <<< 1

/-- The multiplication of the non-normative example (95_test_vectors.md 2.0), by the bits of the second factor. -/
def Config.exampleMul (a b : Sym) : Sym :=
  (if b.getLsbD 0 then a else 0) ^^^
  (if b.getLsbD 1 then Config.exampleDouble a else 0) ^^^
  (if b.getLsbD 2 then Config.exampleDouble (Config.exampleDouble a) else 0) ^^^
  (if b.getLsbD 3 then Config.exampleDouble (Config.exampleDouble (Config.exampleDouble a)) else 0)

/-- `a^14`, the inverse in a field of 16 elements. -/
def Config.exampleInv (a : Sym) : Sym :=
  let a2 := Config.exampleMul a a
  let a4 := Config.exampleMul a2 a2
  let a8 := Config.exampleMul a4 a4
  Config.exampleMul a8 (Config.exampleMul a4 a2)

theorem Config.exampleDouble_xor : ∀ a b : Sym,
    Config.exampleDouble (a ^^^ b) = Config.exampleDouble a ^^^ Config.exampleDouble b := by decide
theorem Config.exampleMul_comm : ∀ a b : Sym, Config.exampleMul a b = Config.exampleMul b a := by decide
theorem Config.exampleMul_xor : ∀ a b c : Sym,
    Config.exampleMul (a ^^^ b) c = Config.exampleMul a c ^^^ Config.exampleMul b c := by decide
theorem Config.exampleMul_assoc : ∀ a b c : Sym,
    Config.exampleMul (Config.exampleMul a b) c = Config.exampleMul a (Config.exampleMul b c) := by decide
theorem Config.exampleMul_inv : ∀ a : Sym, a ≠ 0 → Config.exampleMul a (Config.exampleInv a) = 1 := by decide

/-- The non-normative instantiation `GEN_PROD_I` (95_test_vectors.md 2.0: `g_3 … g_0 = 15, 3, 1, 12`). It shows that R6's constraints can be
met and serves tests; no value of it reaches the machine. -/
def Config.exampleGenerator : Config.Generator where
  mul := Config.exampleMul
  one := 1
  inv := Config.exampleInv
  coeff := fun j => #v[15#4, 3#4, 1#4, 12#4][j]
  one_ne_zero := by decide
  mul_comm := Config.exampleMul_comm
  mul_assoc := Config.exampleMul_assoc
  mul_one := by decide
  mul_inv := Config.exampleMul_inv
  xor_mul := Config.exampleMul_xor

/-- The generator of this hardware: OPEN (R6), a constant with no body, of which only the laws of `Config.Generator` can be proved. The
argument says that some generator exists, which an opaque constant needs. -/
opaque Config.openGenerator [Inhabited Config.Generator] : Config.Generator

/-- The generator of this hardware (R6). DESIGN CHOICE (log entry 1): the parameter is an opaque constant. -/
def Config.generator : Config.Generator := @Config.openGenerator ⟨Config.exampleGenerator⟩

/-- `GEN_PROD(a, j) = a ⊗ c_j` of any generator (R6, constraint 2). -/
def Config.Generator.prod (g : Config.Generator) (a : Sym) (j : Fin 4) : Sym := g.mul a (g.coeff j)

/-- `GEN_PROD` (R6). -/
def Config.genProd (a : Sym) (j : Fin 4) : Sym := Config.generator.prod a j

end Sys2Proof
end

