-- ==== Sys2Proof/Machine/State.lean ====
section
/-!
DEFINITION. The architectural state of the block (10_state.md R21) and the host's side of the bus (R20, 70_reset_and_hazards.md R145),
the reasons a step stops, and the state after reset (R140).
-/
namespace Sys2Proof.Machine

/-- A cell of R21: `⊥`, not written since reset, or an 8-bit value. `⊥` is the spec's own state and the value it
states for reset (R140), with a rule of its own for its read (R34). -/
inductive Cell where
  /-- `⊥` -/
  | unwritten
  | byte (v : Byte)
  deriving DecidableEq, Repr

/-- The reasons of 60_exceptions.md R130. A fault changes no state but the mark and leaves no further step (R31). -/
inductive Fault where
  /-- A host read of a `⊥` cell, or `ENCODE` reading a `⊥` message cell: R34 and R103 state this fault and R130 lists it. Safe: the device may go on with a
  value the spec does not give. -/
  | unwrittenRead
  /-- A host read or write of a reserved address (R44). Safe: the device may answer. -/
  | unmappedAccess
  /-- A host write to `STATUS`, `RESULT` or `PAR[j]` (R44). Safe: the device may ignore it or take it. -/
  | readOnlyWrite
  /-- A host read of `CMD` (R44). Safe: the device may answer. -/
  | writeOnlyRead
  /-- A host write to `MSG[i]` with a data bit of [31:8] set (R44). Safe: the device may truncate. -/
  | wideData
  deriving DecidableEq, Repr

/-- Instructions this model gives no meaning to. -/
inductive Refusal where
  /-- An opcode-table row without a meaning. No arm of `exec` raises it: every command has its meaning. Safe: the step answers nothing. -/
  | notModelled (mnemonic : String)
  deriving DecidableEq, Repr

/-- One input of the block: a host-bus transaction (20_memory.md R42, R43), or an assertion of reset (R141). -/
inductive HostEvent where
  /-- `RD addr` -/
  | read (addr : Addr)
  /-- `WR addr, data` -/
  | write (addr : Addr) (data : Word)
  /-- reset asserted between two transactions. DESIGN CHOICE (log entry 7). -/
  | reset
  deriving DecidableEq, Repr

/-- The state record of R21 and, last, the two fields of the host's side that a run is made of. -/
structure State where
  /-- `STATUS` (R22), host address 0x01 -/
  status : Cell
  /-- `RESULT` (R23), host address 0x02 -/
  result : Cell
  /-- `MSG[0 … 15]` (R25), host addresses 0x10 to 0x1F. An array of cells, as R21 has it. DESIGN CHOICE (log entry 4). -/
  msg : Vector Cell 16
  /-- `PAR[0 … 3]` (R26), host addresses 0x20 to 0x23. An array of cells, as R21 has it. DESIGN CHOICE (log entry 4). -/
  par : Vector Cell 4
  /-- the fault mark (R31). DESIGN CHOICE (log entry 9): a faulting step answers `.fault`, and the marked state is `afterStep`'s. -/
  fault : Option Fault
  /-- the host's remaining sequence, next first (R20, R49). DESIGN CHOICE (log entry 3). -/
  pending : List HostEvent
  /-- the values the host's reads have returned, oldest first (R145). DESIGN CHOICE (log entry 3). -/
  observed : List Word
  deriving DecidableEq, Repr

/-- After reset (R140): every cell `⊥`, no fault mark; the host has issued nothing (R143). -/
def State.reset : State where
  status := .unwritten
  result := .unwritten
  msg := .replicate 16 .unwritten
  par := .replicate 4 .unwritten
  fault := none
  pending := []
  observed := []

/-- What a step, a command or a transaction answers. -/
abbrev Answer := Host.Outcome State Fault Refusal

end Sys2Proof.Machine
end

