-- ==== Sys2Proof/Machine/Operands.lean ====
section
/-!
DEFINITION. The operand forms of the commands: a symbol, a coefficient position, and the message in the buffer. Every operand is validated before
a table is looked up (60_exceptions.md R124, R125), so a lookup outside a table cannot be written.
-/
namespace Sys2Proof.Machine

/-- A symbol operand: an integer below 2^4 (R124). -/
def symbol? (n : Nat) : Option Sym := if n < 16 then some (.ofNat 4 n) else none

/-- A coefficient position: an integer below `W` (R88, R125). -/
def genIndex? (n : Nat) : Option (Fin 4) := if h : n < Config.width then some ⟨n, h⟩ else none

/-- The values of message cells, in order. One `⊥` among them faults the whole read, as R34, R103 and `ENCODE`'s
own pseudocode (R100) say. -/
def readCells (cells : List Cell) : Except Fault (List Byte) :=
  match cells with
  | [] => .ok []
  | .unwritten :: _ => .error .unwrittenRead
  | .byte v :: rest =>
    match readCells rest with
    | .ok vs => .ok (v :: vs)
    | .error f => .error f

/-- `MSG[0 … k-1]`; the cells from `k` on are not read (R103). -/
def readMessage (s : State) (k : Nat) : Except Fault (List Byte) := readCells (s.msg.toList.take k)

/-- The message as symbols, when every byte of it is one (R104). -/
def symbols? (vs : List Byte) : Option (List Sym) :=
  match vs with
  | [] => some []
  | v :: rest =>
    match symbol? v.toNat, symbols? rest with
    | some a, some as => some (a :: as)
    | _, _ => none

end Sys2Proof.Machine
end

