-- ==== Sys2Proof/Machine/Flags.lean ====
section
/-!
DEFINITION. The condition indication of the block: `STATUS.CODE` is the only flag (10_state.md R29), with the codes of 60_exceptions.md R120.
-/
namespace Sys2Proof.Machine

/-- The status codes of R120. -/
inductive StatusCode where
  | ok
  | unsupportedFieldWidth
  | invalidShortening
  | bufferTooSmall
  | outOfRangeSymbol
  | invalidParityCount
  | invalidGenIndex
  | illegalCommand
  deriving DecidableEq, Repr

/-- The number of a code, as `STATUS` holds it (R120). -/
def StatusCode.byte (c : StatusCode) : Byte :=
  match c with
  | .ok => 0x00#8
  | .unsupportedFieldWidth => 0x01#8
  | .invalidShortening => 0x02#8
  | .bufferTooSmall => 0x03#8
  | .outOfRangeSymbol => 0x04#8
  | .invalidParityCount => 0x05#8
  | .invalidGenIndex => 0x06#8
  | .illegalCommand => 0x07#8

end Sys2Proof.Machine
end

