-- ==== Sys2Proof/Machine/Ops.lean ====
section
/-!
DEFINITION. The named operations over the state. A failing command ends in `raise`, which is no trap: nothing is saved and control goes nowhere
(60_exceptions.md R128), so there is nothing to return from (R129). Where the spec gives no meaning, an operation answers a fault (R130).
-/
namespace Sys2Proof.Machine

/-- `STATUS <- code` (R22). -/
def State.setStatus (s : State) (c : StatusCode) : State := { s with status := .byte c.byte }

/-- `RESULT <- zext_8(v)` (R23). -/
def State.setResult (s : State) (v : Sym) : State := { s with result := .byte (v.setWidth 8) }

/-- `MSG[i] <- v` (R25, R43). -/
def State.setMsg (s : State) (i : Fin 16) (v : Byte) : State := { s with msg := s.msg.set i (.byte v) }

/-- `PAR[j] <- zext_8(acc[j])` for every `j` (R26, R106). -/
def State.setPar (s : State) (acc : Vector Sym 4) : State :=
  { s with par := #v[.byte (acc[0].setWidth 8), .byte (acc[1].setWidth 8), .byte (acc[2].setWidth 8), .byte (acc[3].setWidth 8)] }

/-- The host receives the value of a read (R69, R145). -/
def State.observe (s : State) (v : Word) : State := { s with observed := s.observed ++ [v] }

/-- Every cell is `⊥` again; the tables and the fault mark are untouched (R140, R141), and so is the host's side. -/
def State.assertReset (s : State) : State :=
  { s with status := .unwritten, result := .unwritten, msg := .replicate 16 .unwritten, par := .replicate 4 .unwritten }

/-- The fault mark is set by the first fault and never cleared (R31). -/
def State.mark (s : State) (f : Fault) : State :=
  { s with fault := some (match s.fault with | some g => g | none => f) }

/-- `raise Status(code)`: the command ends, having written `STATUS` and nothing else (00_scope.md R11, R12). -/
def raise (c : StatusCode) (s : State) : Answer := .next (s.setStatus c)

/-- The end of a successful command: `STATUS <- OK`, its last effect (R22). -/
def succeed (s : State) : Answer := .next (s.setStatus .ok)

/-- The value of a cell the host reads, zero-extended to the bus word; a `⊥` cell faults, as
R34 and the last check of `HostRead` (R42) say. -/
def readCell (c : Cell) (s : State) : Answer :=
  match c with
  | .unwritten => .fault .unwrittenRead
  | .byte v => .next (s.observe (v.setWidth 32))

end Sys2Proof.Machine
end

