-- ==== Sys2Proof/Machine/Tables.lean ====
section
/-!
DEFINITION. The two constant tables of the block (10_state.md R27, R28; 40_field_arith.md R80, R84) and the primitives that look them up (R83, R87).
-/
namespace Sys2Proof.Machine

/-- The entries of `ADD_TBL` as 40_field_arith.md R80 prints them: row `a`, column `b`. -/
def addTbl : Vector (Vector Sym 16) 16 := #v[
  #v[0x0#4, 0x1#4, 0x2#4, 0x3#4, 0x4#4, 0x5#4, 0x6#4, 0x7#4, 0x8#4, 0x9#4, 0xA#4, 0xB#4, 0xC#4, 0xD#4, 0xE#4, 0xF#4],
  #v[0x1#4, 0x0#4, 0x3#4, 0x2#4, 0x5#4, 0x4#4, 0x7#4, 0x6#4, 0x9#4, 0x8#4, 0xB#4, 0xA#4, 0xD#4, 0xC#4, 0xF#4, 0xE#4],
  #v[0x2#4, 0x3#4, 0x0#4, 0x1#4, 0x6#4, 0x7#4, 0x4#4, 0x5#4, 0xA#4, 0xB#4, 0x8#4, 0x9#4, 0xE#4, 0xF#4, 0xC#4, 0xD#4],
  #v[0x3#4, 0x2#4, 0x1#4, 0x0#4, 0x7#4, 0x6#4, 0x5#4, 0x4#4, 0xB#4, 0xA#4, 0x9#4, 0x8#4, 0xF#4, 0xE#4, 0xD#4, 0xC#4],
  #v[0x4#4, 0x5#4, 0x6#4, 0x7#4, 0x0#4, 0x1#4, 0x2#4, 0x3#4, 0xC#4, 0xD#4, 0xE#4, 0xF#4, 0x8#4, 0x9#4, 0xA#4, 0xB#4],
  #v[0x5#4, 0x4#4, 0x7#4, 0x6#4, 0x1#4, 0x0#4, 0x3#4, 0x2#4, 0xD#4, 0xC#4, 0xF#4, 0xE#4, 0x9#4, 0x8#4, 0xB#4, 0xA#4],
  #v[0x6#4, 0x7#4, 0x4#4, 0x5#4, 0x2#4, 0x3#4, 0x0#4, 0x1#4, 0xE#4, 0xF#4, 0xC#4, 0xD#4, 0xA#4, 0xB#4, 0x8#4, 0x9#4],
  #v[0x7#4, 0x6#4, 0x5#4, 0x4#4, 0x3#4, 0x2#4, 0x1#4, 0x0#4, 0xF#4, 0xE#4, 0xD#4, 0xC#4, 0xB#4, 0xA#4, 0x9#4, 0x8#4],
  #v[0x8#4, 0x9#4, 0xA#4, 0xB#4, 0xC#4, 0xD#4, 0xE#4, 0xF#4, 0x0#4, 0x1#4, 0x2#4, 0x3#4, 0x4#4, 0x5#4, 0x6#4, 0x7#4],
  #v[0x9#4, 0x8#4, 0xB#4, 0xA#4, 0xD#4, 0xC#4, 0xF#4, 0xE#4, 0x1#4, 0x0#4, 0x3#4, 0x2#4, 0x5#4, 0x4#4, 0x7#4, 0x6#4],
  #v[0xA#4, 0xB#4, 0x8#4, 0x9#4, 0xE#4, 0xF#4, 0xC#4, 0xD#4, 0x2#4, 0x3#4, 0x0#4, 0x1#4, 0x6#4, 0x7#4, 0x4#4, 0x5#4],
  #v[0xB#4, 0xA#4, 0x9#4, 0x8#4, 0xF#4, 0xE#4, 0xD#4, 0xC#4, 0x3#4, 0x2#4, 0x1#4, 0x0#4, 0x7#4, 0x6#4, 0x5#4, 0x4#4],
  #v[0xC#4, 0xD#4, 0xE#4, 0xF#4, 0x8#4, 0x9#4, 0xA#4, 0xB#4, 0x4#4, 0x5#4, 0x6#4, 0x7#4, 0x0#4, 0x1#4, 0x2#4, 0x3#4],
  #v[0xD#4, 0xC#4, 0xF#4, 0xE#4, 0x9#4, 0x8#4, 0xB#4, 0xA#4, 0x5#4, 0x4#4, 0x7#4, 0x6#4, 0x1#4, 0x0#4, 0x3#4, 0x2#4],
  #v[0xE#4, 0xF#4, 0xC#4, 0xD#4, 0xA#4, 0xB#4, 0x8#4, 0x9#4, 0x6#4, 0x7#4, 0x4#4, 0x5#4, 0x2#4, 0x3#4, 0x0#4, 0x1#4],
  #v[0xF#4, 0xE#4, 0xD#4, 0xC#4, 0xB#4, 0xA#4, 0x9#4, 0x8#4, 0x7#4, 0x6#4, 0x5#4, 0x4#4, 0x3#4, 0x2#4, 0x1#4, 0x0#4]]

/-- `fadd(a, b) = ADD_TBL[a][b]` (R83). Its domain is that of the table, by its type. -/
def fadd (a b : Sym) : Sym := addTbl[a.toNat][b.toNat]

/-- `GEN_TBL[a][j] = GEN_PROD(a, j)` (R28, R84): the contents are the OPEN parameter of 00_scope.md R6. -/
def genTbl (a : Sym) (j : Fin 4) : Sym := Config.genProd a j

/-- `fmulg(a, j) = GEN_TBL[a][j]` (R87). Its domain is that of the table, by its type. -/
def fmulg (a : Sym) (j : Fin 4) : Sym := genTbl a j

end Sys2Proof.Machine
end

