-- ==== Sys2Proof/Machine/Encoder.lean ====
section
/-!
DEFINITION. The systematic encoder (41_encoder.md): the shift-register convolution, and the command `ENCODE`.
-/
namespace Sys2Proof.Machine

/-- The parity accumulator before the first symbol (R105, item 3). -/
def zeroAcc : Vector Sym 4 := #v[0, 0, 0, 0]

/-- One iteration of the convolution over a product table `gen` (R105, item 4): the feedback, its product row, and the shift, which in ascending
order reads every position before it is overwritten. -/
def shiftIn (gen : Sym → Fin 4 → Sym) (acc : Vector Sym 4) (s : Sym) : Vector Sym 4 :=
  let fb := fadd s acc[0]
  #v[fadd acc[1] (gen fb 0), fadd acc[2] (gen fb 1), fadd acc[3] (gen fb 2), fadd 0 (gen fb 3)]

/-- The convolution over a padded message (R105). -/
def convolve (gen : Sym → Fin 4 → Sym) (padded : List Sym) : Vector Sym 4 :=
  padded.foldl (shiftIn gen) zeroAcc

/-- The padded message: the shortened count of zeros, then the message (R105, items 1 and 2). -/
def pad (m k t : Nat) (message : List Sym) : List Sym :=
  List.replicate ((2 ^ m - 1) - (k + t)) 0 ++ message

/-- `ENCODE m, k, t, cap` (R100), its checks in the order of R127. -/
def execEncode (m k t cap : Nat) (s : State) : Answer :=
  if m ≠ Config.mSupported then raise .unsupportedFieldWidth s
  else if t ≠ Config.width then raise .invalidParityCount s
  else if 2 ^ m - 1 < k + t then raise .invalidShortening s
  else if cap < t then raise .bufferTooSmall s
  else
    match readMessage s k with
    | .error f => .fault f
    | .ok bytes =>
      match symbols? bytes with
      | none => raise .outOfRangeSymbol s
      | some message => succeed (s.setPar (convolve fmulg (pad m k t message)))

end Sys2Proof.Machine
end

