-- ==== Sys2Proof/Machine/Field.lean ====
section
/-!
DEFINITION. The Galois field commands (40_field_arith.md), their checks in the order of 60_exceptions.md R127.
-/
namespace Sys2Proof.Machine

/-- `FIELD_ADD m, a, b` (R82). -/
def execFieldAdd (m a b : Nat) (s : State) : Answer :=
  if m ≠ Config.mSupported then raise .unsupportedFieldWidth s
  else
    match symbol? a, symbol? b with
    | some x, some y => succeed (s.setResult (fadd x y))
    | _, _ => raise .outOfRangeSymbol s

/-- `FIELD_MUL_GEN m, a, j` (R88). -/
def execFieldMulGen (m a j : Nat) (s : State) : Answer :=
  if m ≠ Config.mSupported then raise .unsupportedFieldWidth s
  else
    match symbol? a with
    | none => raise .outOfRangeSymbol s
    | some x =>
      match genIndex? j with
      | none => raise .invalidGenIndex s
      | some i => succeed (s.setResult (fmulg x i))

end Sys2Proof.Machine
end

