-- ==== Sys2Proof/Machine/Dispatch.lean ====
section
/-! DEFINITION. Every command and its meaning (30_encoding.md R66). -/
namespace Sys2Proof.Machine

/-- The command, executed as one atomic step (20_memory.md R47). -/
def exec (i : Instr) (s : State) : Host.Outcome State Fault Refusal :=
  match i with
  | .fieldAdd m a b => Sys2Proof.Machine.execFieldAdd m a b s
  | .fieldMulGen m a j => Sys2Proof.Machine.execFieldMulGen m a j s
  | .encode m k t cap => Sys2Proof.Machine.execEncode m k t cap s

end Sys2Proof.Machine
end

