-- ==== Sys2Proof/Machine/Bus.lean ====
section
/-!
DEFINITION. The host bus (20_memory.md): the address map, the two transactions, and the command port.
-/
namespace Sys2Proof.Machine

/-- What an address names (R41). -/
inductive BusPlace where
  | cmd
  | status
  | result
  | msg (i : Fin 16)
  | par (j : Fin 4)
  | reserved
  deriving DecidableEq, Repr

/-- The address map (R41). -/
def busPlace (addr : Addr) : BusPlace :=
  let n := addr.toNat
  if n = 0x00 then .cmd
  else if n = 0x01 then .status
  else if n = 0x02 then .result
  else if n < 0x10 then .reserved
  else if h : n - 0x10 < 16 then .msg ⟨n - 0x10, h⟩
  else if h : n - 0x20 < 4 then .par ⟨n - 0x20, h⟩
  else .reserved

/-- `HostRead(addr)` (R42, R44). -/
def hostRead (addr : Addr) (s : State) : Answer :=
  match busPlace addr with
  | .cmd => .fault .writeOnlyRead
  | .status => readCell s.status s
  | .result => readCell s.result s
  | .msg i => readCell s.msg[i] s
  | .par j => readCell s.par[j] s
  | .reserved => .fault .unmappedAccess

/-- `Execute(d)` (R60): the command of the word, or status `ILLEGAL_COMMAND` (R67). -/
def execute (d : Word) (s : State) : Answer :=
  match decode d with
  | .command i => exec i s
  | .illegal _ => raise .illegalCommand s

/-- The data of a write to a message cell: bits [31:8] must be 0 (R43, R44). -/
def writeMessage (i : Fin 16) (d : Word) (s : State) : Answer :=
  if d.extractLsb' 8 24 = 0#24 then .next (s.setMsg i (d.extractLsb' 0 8)) else .fault .wideData

/-- `HostWrite(addr, d)` (R43, R44). -/
def hostWrite (addr : Addr) (d : Word) (s : State) : Answer :=
  match busPlace addr with
  | .cmd => execute d s
  | .status => .fault .readOnlyWrite
  | .result => .fault .readOnlyWrite
  | .msg i => writeMessage i d s
  | .par _ => .fault .readOnlyWrite
  | .reserved => .fault .unmappedAccess

/-- One input of the block, complete before the next (R47): a transaction, or reset (R141). -/
def handle (e : HostEvent) (s : State) : Answer :=
  match e with
  | .read addr => hostRead addr s
  | .write addr d => hostWrite addr d s
  | .reset => .next s.assertReset

/-- The next input: the host's next event is taken from its sequence and handled (R49). With none the block waits (R143). DEDUCED (log entry 5). -/
def takeEvent (s : State) : Answer :=
  match s.pending with
  | [] => .next s
  | e :: rest => handle e { s with pending := rest }

/-- A step of the block: a state with the fault mark has none (R31), so it answers its fault again. -/
def stepBlock (s : State) : Answer :=
  match s.fault with
  | some f => .fault f
  | none => takeEvent s

/-- The host issues this command word next: the write of it to `CMD` heads its sequence. -/
def issueCommand (s : State) (d : Word) : State := { s with pending := .write 0x00#8 d :: s.pending }

end Sys2Proof.Machine
end

