-- ==== Sys2Proof/Machine/Step.lean ====
section
/-! DEFINITION. The step of the machine: one input of the block (20_memory.md R47, R49). -/
namespace Sys2Proof.Machine

/-- One step. -/
def step (s : State) : Host.Outcome State Fault Refusal := stepBlock s

/-- `s` with the command of an opcode-table word as the host's next transaction. DESIGN CHOICE (log entry 6). -/
def State.withFetchWord (s : State) (nbits w : Nat) : State := issueCommand s (tableWord nbits w)

end Sys2Proof.Machine
end

