-- ==== Sys2Proof/Machine/Assembly.lean ====
section
/-!
DEFINITION. Host programs: the lines of 30_encoding.md R69 and the transactions each stands for. A number too wide for its field is refused, it does not wrap.
-/
namespace Sys2Proof.Machine

/-- A line of a host program (R69). -/
inductive AsmLine where
  | wr (addr data : Nat)
  | rd (addr : Nat)
  | fieldAdd (m a b : Nat)
  | fieldMulGen (m a j : Nat)
  | encode (m k t cap : Nat)
  | wmsg (i v : Nat)
  | loadmsg (vs : List Nat)
  | rstatus
  | rresult
  | rpar (j : Nat)
  deriving DecidableEq, Repr

/-- `WR addr, data`. -/
def assembleWrite (addr data : Nat) : Option (List HostEvent) :=
  if addr < 2 ^ 8 ∧ data < 2 ^ 32 then some [.write (.ofNat 8 addr) (.ofNat 32 data)] else none

/-- `RD addr`. -/
def assembleRead (addr : Nat) : Option (List HostEvent) :=
  if addr < 2 ^ 8 then some [.read (.ofNat 8 addr)] else none

/-- A command pseudo-operation: the write of its word to `CMD`. -/
def assembleCommand (i : Instr) : Option (List HostEvent) :=
  if i.wellFormed then some [.write 0x00#8 (encode i)] else none

/-- The transactions of two program parts, the first part's first. -/
def joinParts (p q : Option (List HostEvent)) : Option (List HostEvent) :=
  match p, q with
  | some es, some fs => some (es ++ fs)
  | _, _ => none

/-- `WMSG i, v0`, `WMSG i+1, v1`, … -/
def assembleLoad (i : Nat) (vs : List Nat) : Option (List HostEvent) :=
  match vs with
  | [] => some []
  | v :: rest => joinParts (assembleWrite (0x10 + i) v) (assembleLoad (i + 1) rest)

/-- The transactions of one line (R69), or none where a number does not fit. -/
def assembleLine (l : AsmLine) : Option (List HostEvent) :=
  match l with
  | .wr addr data => assembleWrite addr data
  | .rd addr => assembleRead addr
  | .fieldAdd m a b => assembleCommand (.fieldAdd m a b)
  | .fieldMulGen m a j => assembleCommand (.fieldMulGen m a j)
  | .encode m k t cap => assembleCommand (.encode m k t cap)
  | .wmsg i v => assembleWrite (0x10 + i) v
  | .loadmsg vs => assembleLoad 0 vs
  | .rstatus => assembleRead 0x01
  | .rresult => assembleRead 0x02
  | .rpar j => assembleRead (0x20 + j)

/-- The transactions of a program, line after line. -/
def assemble (lines : List AsmLine) : Option (List HostEvent) :=
  match lines with
  | [] => some []
  | l :: rest => joinParts (assembleLine l) (assemble rest)

end Sys2Proof.Machine
end

