-- ==== Sys2Proof/Machine/Run.lean ====
section
/-!
DEFINITION. Runs of a host program (70_reset_and_hazards.md R145): the state a step leaves, fault mark included (10_state.md R31), and what is observed.
-/
namespace Sys2Proof.Machine

/-- The state after a step. A step that faults leaves its state with the mark set and no other state changed (R130); a marked state stays as it is (R31).
DESIGN CHOICE (log entry 9). -/
def afterStep (s : State) : State :=
  match step s with
  | .next t => t
  | .fault f => s.mark f
  | .refused _ => s

/-- The state after `n` steps. -/
def afterSteps (n : Nat) (s : State) : State :=
  match n with
  | 0 => s
  | k + 1 => afterSteps k (afterStep s)

/-- The block after reset, driven by a host with this program. -/
def State.launch (program : List HostEvent) : State := { State.reset with pending := program }

/-- The end of the run of a program: its last transaction has completed, or a fault has come first (R145). -/
def endOfRun (program : List HostEvent) : State := afterSteps program.length (State.launch program)

/-- What is observed of a run (R145). -/
structure Observation where
  /-- the values the `RD` lines returned -/
  reads : List Word
  status : Cell
  result : Cell
  msg : Vector Cell 16
  par : Vector Cell 4
  deriving DecidableEq, Repr

/-- The observation at a state (R145). -/
def observation (s : State) : Observation :=
  { reads := s.observed, status := s.status, result := s.result, msg := s.msg, par := s.par }

end Sys2Proof.Machine
end

