-- ==== Sys2Proof/Safety.lean ====
section
/-!
DEFINITION. What counts as a good run (70_reset_and_hazards.md R145), and the invariant of the cells the block writes (10_state.md R33, 60_exceptions.md R120).
-/
namespace Sys2Proof.Machine

/-- A state no step has faulted in (R31). -/
abbrev State.Good (s : State) : Prop := s.fault = none

/-- A run that is good: the mark is `none` at its end (R145). -/
abbrev GoodRun (program : List HostEvent) : Prop := (endOfRun program).Good

/-- A written cell holds a value below `n`. -/
def Cell.below (n : Nat) (c : Cell) : Bool :=
  match c with
  | .unwritten => true
  | .byte v => decide (v.toNat < n)

/-- `STATUS` holds a code of R120, `RESULT` and every `PAR[j]` hold symbols (R23, R33), each if it is written at all, and every value the host has
read is the zero extension of a cell (R33). -/
abbrev State.Inv (s : State) : Prop :=
  s.status.below 8 = true ∧ s.result.below 16 = true ∧ (∀ j : Fin 4, s.par[j].below 16 = true) ∧
    s.observed.all (fun v => decide (v.toNat < 2 ^ 8)) = true

end Sys2Proof.Machine
end

