-- ==== Sys2Proof/Certificates/Slice0/Obligations.lean ====
section
/-!
DEFINITION. The statements for the provers. `R<n>` is a numbered rule of spec/. A title that names a log entry says what is the model's choice in it.
-/
open Sys2Proof Sys2Proof.Machine

/-! Words of the spec that the statements use -/

/-- The recurrence of 41_encoder.md R105, item 4, with `fadd` as exclusive-or and all positions updated at once: `out` is the accumulator after the symbols
`P 0 … P (n - 1)`, from all zeros. -/
def Sys2Proof.Spec.IsConvolution (gen : Sym → Fin 4 → Sym) (P : Nat → Sym) (n : Nat) (out : Fin 4 → Sym) : Prop :=
  ∃ acc : Nat → Fin 4 → Sym,
    (∀ j, acc 0 j = 0) ∧
    (∀ i, i < n → ∀ j : Fin 4,
      acc (i + 1) j = (if h : j.val + 1 < 4 then acc i ⟨j.val + 1, h⟩ else 0) ^^^ gen (P i ^^^ acc i 0) j) ∧
    (∀ j, out j = acc n j)

/-- `MSG[0 … k-1]` holds the symbols `u 0 … u (k - 1)`. -/
def Sys2Proof.Spec.HoldsMessage (s : State) (k : Nat) (u : Nat → Sym) : Prop :=
  ∀ i : Fin 16, i.val < k → s.msg[i] = .byte ((u i.val).setWidth 8)

/-- The parity buffer holding `p 0 … p 3`. -/
def Sys2Proof.Spec.parityCells (p : Fin 4 → Sym) : Vector Cell 4 :=
  #v[.byte ((p 0).setWidth 8), .byte ((p 1).setWidth 8), .byte ((p 2).setWidth 8), .byte ((p 3).setWidth 8)]

/-- The host reads `addr` next. -/
def Sys2Proof.Spec.NextRead (s : State) (addr : Addr) (rest : List HostEvent) : Prop :=
  s.fault = none ∧ s.pending = .read addr :: rest

/-- The host writes `d` to `addr` next. -/
def Sys2Proof.Spec.NextWrite (s : State) (addr : Addr) (d : Word) (rest : List HostEvent) : Prop :=
  s.fault = none ∧ s.pending = .write addr d :: rest

open Sys2Proof.Spec

/-! Encoding -/

/-- Words written out in 30_encoding.md R62, R63, R64 and 95_test_vectors.md 2.1. -/
def Obligations.DecodeSpecWords : Prop :=
  decode 0x14000305#32 = .command (.fieldAdd 4 3 5) ∧
  decode 0x24000702#32 = .command (.fieldMulGen 4 7 2) ∧
  decode 0x340A0404#32 = .command (.encode 4 10 4 4) ∧
  decode 0x15000102#32 = .command (.fieldAdd 5 1 2) ∧
  decode 0x3F0B0404#32 = .command (.encode 15 11 4 4) ∧
  decode 0x14010305#32 = .illegal .reservedBits ∧
  decode 0x40000000#32 = .illegal .reservedOpcode

/-- 30_encoding.md R61 to R65: the decoder reads back every well-formed command from its word. -/
def Obligations.DecodeEncode : Prop :=
  ∀ i : Instr, i.WellFormed → decode (encode i) = .command i

/-- 30_encoding.md R61 to R65: a word that decodes to a command is that command's word, and the command is well-formed. -/
def Obligations.EncodeDecode : Prop :=
  ∀ (d : Word) (i : Instr), decode d = .command i → i.WellFormed ∧ encode i = d

/-- 30_encoding.md R70 (with the pairs of R66): decode is total and unambiguous by the match/mask pairs. -/
def Obligations.DecodeByRows : Prop :=
  ∀ d : Word,
    ((∃ m a b, decode d = .command (.fieldAdd m a b)) ↔ d &&& 0xF0FF0000#32 = 0x10000000#32) ∧
    ((∃ m a j, decode d = .command (.fieldMulGen m a j)) ↔ d &&& 0xF0FF0000#32 = 0x20000000#32) ∧
    ((∃ m k t cap, decode d = .command (.encode m k t cap)) ↔ d &&& 0xF0000000#32 = 0x30000000#32) ∧
    ((∃ e, decode d = .illegal e) ↔
      d &&& 0xF0FF0000#32 ≠ 0x10000000#32 ∧ d &&& 0xF0FF0000#32 ≠ 0x20000000#32 ∧ d &&& 0xF0000000#32 ≠ 0x30000000#32) ∧
    ¬ (d &&& 0xF0FF0000#32 = 0x10000000#32 ∧ d &&& 0xF0FF0000#32 = 0x20000000#32) ∧
    ¬ (d &&& 0xF0FF0000#32 = 0x10000000#32 ∧ d &&& 0xF0000000#32 = 0x30000000#32) ∧
    ¬ (d &&& 0xF0FF0000#32 = 0x20000000#32 ∧ d &&& 0xF0000000#32 = 0x30000000#32)

/-- 30_encoding.md R67 and 60_exceptions.md R126: exactly these words are illegal, and each completes with `STATUS <- ILLEGAL_COMMAND` and nothing else. -/
def Obligations.IllegalWords : Prop :=
  ∀ (d : Word) (s : State),
    ((∃ e, decode d = .illegal e) ↔
      d.extractLsb' 28 4 = 0x0#4 ∨ 0x4#4 ≤ d.extractLsb' 28 4 ∨
      ((d.extractLsb' 28 4 = 0x1#4 ∨ d.extractLsb' 28 4 = 0x2#4) ∧ d.extractLsb' 16 8 ≠ 0x00#8)) ∧
    ((∃ e, decode d = .illegal e) → execute d s = .next { s with status := .byte 0x07#8 })

/-! The step -/

/-- 20_memory.md R47, 30_encoding.md R60: a write of a command's word to `CMD` runs that command, as one step. Around `exec` the step only takes the
transaction off the host's sequence (log entry 3). -/
def Obligations.StepRunsCommand : Prop :=
  ∀ (s : State) (d : Word) (rest : List HostEvent) (i : Instr),
    NextWrite s 0x00#8 d rest → decode d = .command i → step s = exec i { s with pending := rest }

/-- The same through the opcode table's numbering and the host's placement of a command (log entry 6). -/
def Obligations.StepRunsFetchedWord : Prop :=
  ∀ (s : State) (nbits w : Nat) (i : Instr),
    s.fault = none → decodeTableWord nbits w = some i → step (s.withFetchWord nbits w) = exec i s

/-- 10_state.md R31, 60_exceptions.md R130: the fault mark starts as `none`, is set by the first fault with no other state changed, is never cleared, and
leaves no further step. That the marked state is `afterStep`'s, and that a step from it answers its fault again, is the model's choice: log entry 9. -/
def Obligations.FaultMark : Prop :=
  State.reset.fault = none ∧
  (∀ s f, step s = .fault f → s.fault = none → afterStep s = { s with fault := some f }) ∧
  (∀ s f, s.fault = some f → step s = .fault f ∧ ∀ n, afterSteps n s = s) ∧
  (∀ s t, step s = .next t → s.fault = none ∧ t.fault = none)

/-- 70_reset_and_hazards.md R143: with no transaction the block waits. The model's reading of it is log entry 5. -/
def Obligations.WaitsForHost : Prop :=
  ∀ s : State, s.fault = none → s.pending = [] → step s = .next s

/-! The tables -/

/-- 40_field_arith.md R80: the addition table is exclusive-or. -/
def Obligations.AddTableIsXor : Prop :=
  ∀ a b : Fin 16, addTbl[a][b] = BitVec.ofFin a ^^^ BitVec.ofFin b

/-- 40_field_arith.md R81: the laws of the addition table. -/
def Obligations.AddTableLaws : Prop :=
  (∀ a b : Sym, (fadd a b).toNat < 16) ∧ (∀ a : Sym, fadd a 0 = a) ∧ (∀ a : Sym, fadd a a = 0) ∧
  (∀ a b : Sym, fadd a b = fadd b a) ∧ (∀ a b c : Sym, fadd (fadd a b) c = fadd a (fadd b c))

/-- 00_scope.md R6: the product table, whatever it is, has row zero zero, is linear in the element, and is `a ⊗ c_j` for a field multiplication `⊗`
whose addition is exclusive-or. That it is an opaque constant is log entry 1. -/
def Obligations.GenTableConstraints : Prop :=
  (∀ j, genTbl 0 j = 0) ∧
  (∀ a b j, genTbl (a ^^^ b) j = genTbl a j ^^^ genTbl b j) ∧
  ∃ (mul : Sym → Sym → Sym) (one : Sym) (c : Fin 4 → Sym),
    (∀ a j, genTbl a j = mul a (c j)) ∧
    one ≠ 0 ∧ (∀ a, mul a one = a) ∧ (∀ a b, mul a b = mul b a) ∧ (∀ a b d, mul (mul a b) d = mul a (mul b d)) ∧
    (∀ a b d, mul (a ^^^ b) d = mul a d ^^^ mul b d) ∧ (∀ a, a ≠ 0 → ∃ b, mul a b = one)

/-- 00_scope.md R6, constraint 2: a column of the product table is all zero, or it tells any two elements apart. -/
def Obligations.GenTableColumnsInjective : Prop :=
  ∀ j : Fin 4, (∀ a, genTbl a j = 0) ∨ ∀ a b, genTbl a j = genTbl b j → a = b

/-! FIELD_ADD and FIELD_MUL_GEN -/

/-- 40_field_arith.md R82: `FIELD_ADD`, its word's row, its checks in order, its result as `ADD_TBL[a][b]`, and what it writes. -/
def Obligations.FieldAdd : Prop :=
  ∀ (m a b : Nat) (s : State),
    (encode (.fieldAdd m a b) &&& 0xF0FF0000#32 = 0x10000000#32) ∧
    (m ≠ 4 → exec (.fieldAdd m a b) s = .next { s with status := .byte 0x01#8 }) ∧
    (m = 4 → 16 ≤ a ∨ 16 ≤ b → exec (.fieldAdd m a b) s = .next { s with status := .byte 0x04#8 }) ∧
    (∀ (ha : a < 16) (hb : b < 16), m = 4 →
      exec (.fieldAdd m a b) s = .next { s with result := .byte ((addTbl[a][b]).setWidth 8), status := .byte 0x00#8 })

/-- 40_field_arith.md R80, R82: `FIELD_ADD` of two symbols completes with their exclusive-or. -/
def Obligations.FieldAddXor : Prop :=
  ∀ (a b : Nat) (s : State), a < 16 → b < 16 →
    exec (.fieldAdd 4 a b) s = .next { s with result := .byte (.ofNat 8 (a ^^^ b)), status := .byte 0x00#8 }

/-- 40_field_arith.md R88: `FIELD_MUL_GEN`, its word's row, its checks in order, its result as `GEN_TBL[a][j]`, 0 for `a = 0`, and what it writes. -/
def Obligations.FieldMulGen : Prop :=
  ∀ (m a j : Nat) (s : State),
    (encode (.fieldMulGen m a j) &&& 0xF0FF0000#32 = 0x20000000#32) ∧
    (m ≠ 4 → exec (.fieldMulGen m a j) s = .next { s with status := .byte 0x01#8 }) ∧
    (m = 4 → 16 ≤ a → exec (.fieldMulGen m a j) s = .next { s with status := .byte 0x04#8 }) ∧
    (m = 4 → a < 16 → 4 ≤ j → exec (.fieldMulGen m a j) s = .next { s with status := .byte 0x06#8 }) ∧
    (∀ hj : j < 4, m = 4 → a < 16 →
      exec (.fieldMulGen m a j) s =
        .next { s with result := .byte ((genTbl (.ofNat 4 a) ⟨j, hj⟩).setWidth 8), status := .byte 0x00#8 }) ∧
    (m = 4 → a = 0 → j < 4 → exec (.fieldMulGen m a j) s = .next { s with result := .byte 0x00#8, status := .byte 0x00#8 })

/-- Frame of `FIELD_ADD` and `FIELD_MUL_GEN` (10_state.md R23, R25, R26, R31; 00_scope.md R12): they change `STATUS`, `RESULT` if they succeed, and nothing else. -/
def Obligations.FieldFrame : Prop :=
  ∀ (i : Instr) (s t : State),
    ((∃ m a b, i = .fieldAdd m a b) ∨ (∃ m a j, i = .fieldMulGen m a j)) → exec i s = .next t →
    t.msg = s.msg ∧ t.par = s.par ∧ t.fault = s.fault ∧ t.pending = s.pending ∧ t.observed = s.observed ∧
    (t.status ≠ .byte 0x00#8 → t.result = s.result)

/-! ENCODE -/

/-- 60_exceptions.md R122, R123 and 41_encoder.md R101, R104: `ENCODE`'s checks in the order of R127, each writing `STATUS` only, and the fault of R103. -/
def Obligations.EncodeChecks : Prop :=
  ∀ (m k t cap : Nat) (s : State),
    (m ≠ 4 → exec (.encode m k t cap) s = .next { s with status := .byte 0x01#8 }) ∧
    (m = 4 → t ≠ 4 → exec (.encode m k t cap) s = .next { s with status := .byte 0x05#8 }) ∧
    (m = 4 → t = 4 → 15 < k + t → exec (.encode m k t cap) s = .next { s with status := .byte 0x02#8 }) ∧
    (m = 4 → t = 4 → k + t ≤ 15 → cap < t → exec (.encode m k t cap) s = .next { s with status := .byte 0x03#8 }) ∧
    (m = 4 → t = 4 → k + t ≤ 15 → t ≤ cap → (∃ i : Fin 16, i.val < k ∧ s.msg[i] = .unwritten) →
      exec (.encode m k t cap) s = .fault .unwrittenRead) ∧
    (m = 4 → t = 4 → k + t ≤ 15 → t ≤ cap → (∀ i : Fin 16, i.val < k → s.msg[i] ≠ .unwritten) →
      (∃ (i : Fin 16) (v : Byte), i.val < k ∧ s.msg[i] = .byte v ∧ 16 ≤ v.toNat) →
      exec (.encode m k t cap) s = .next { s with status := .byte 0x04#8 })

/-- 41_encoder.md R105, R106: `ENCODE` of a legal message completes with `PAR` the convolution of the padded message, in the computed order, and `STATUS` 0. -/
def Obligations.EncodeComputes : Prop :=
  ∀ (k cap : Nat) (u : Nat → Sym) (s : State), k ≤ 11 → 4 ≤ cap → HoldsMessage s k u →
    ∃ p : Fin 4 → Sym,
      IsConvolution genTbl (fun n => if n < 15 - (k + 4) then 0 else u (n - (15 - (k + 4)))) ((15 - (k + 4)) + k) p ∧
      exec (.encode 4 k 4 cap) s = .next { s with par := parityCells p, status := .byte 0x00#8 }

/-- 41_encoder.md R107: always 11 iterations; a padding zero leaves the accumulator all zero; `PAR` is the unpadded recurrence's. -/
def Obligations.EncodePadding : Prop :=
  (∀ (k : Nat) (message : List Sym), k ≤ 11 → message.length = k → (pad 4 k 4 message).length = 11) ∧
  shiftIn fmulg zeroAcc 0 = zeroAcc ∧
  ∀ (k cap : Nat) (u : Nat → Sym) (s : State), k ≤ 11 → 4 ≤ cap → HoldsMessage s k u →
    ∃ p : Fin 4 → Sym, IsConvolution genTbl u k p ∧
      exec (.encode 4 k 4 cap) s = .next { s with par := parityCells p, status := .byte 0x00#8 }

/-- 41_encoder.md R110: the closed forms for messages of one and two symbols. -/
def Obligations.EncodeShortMessages : Prop :=
  (∀ (a : Sym) (s : State), s.msg[0] = .byte (a.setWidth 8) →
    exec (.encode 4 1 4 4) s = .next { s with par := parityCells (genTbl a), status := .byte 0x00#8 }) ∧
  (∀ (a b : Sym) (s : State), s.msg[0] = .byte (a.setWidth 8) → s.msg[1] = .byte (b.setWidth 8) →
    exec (.encode 4 2 4 4) s = .next
      { s with
        par := parityCells fun j =>
          if h : j.val + 1 < 4 then genTbl a ⟨j.val + 1, h⟩ ^^^ genTbl (b ^^^ genTbl a 0) j
          else genTbl (b ^^^ genTbl a 0) j
        status := .byte 0x00#8 })

/-- 41_encoder.md R108, R109: an all-zero message, the empty one among them, completes with parity zero. -/
def Obligations.EncodeZeroMessage : Prop :=
  ∀ (k cap : Nat) (s : State), k ≤ 11 → 4 ≤ cap → HoldsMessage s k (fun _ => 0) →
    exec (.encode 4 k 4 cap) s =
      .next { s with par := #v[.byte 0#8, .byte 0#8, .byte 0#8, .byte 0#8], status := .byte 0x00#8 }

/-- 41_encoder.md R108: the parity of the symbol-wise sum of two messages is the sum of their parities. -/
def Obligations.EncodeLinear : Prop :=
  ∀ (k : Nat) (u v : Nat → Sym) (r s t : State), k ≤ 11 → HoldsMessage r k u → HoldsMessage s k v →
    HoldsMessage t k (fun n => u n ^^^ v n) →
    ∃ p q : Fin 4 → Sym,
      exec (.encode 4 k 4 4) r = .next { r with par := parityCells p, status := .byte 0x00#8 } ∧
      exec (.encode 4 k 4 4) s = .next { s with par := parityCells q, status := .byte 0x00#8 } ∧
      exec (.encode 4 k 4 4) t = .next { t with par := parityCells (fun j => p j ^^^ q j), status := .byte 0x00#8 }

/-- 41_encoder.md R103, R108, R109: `ENCODE` learns of the state only `MSG[0 … k-1]`: states that agree there get the same status, the same parity on success,
or the same fault. -/
def Obligations.EncodeReadsItsMessageOnly : Prop :=
  ∀ (m k t cap : Nat) (r s : State), (∀ i : Fin 16, i.val < k → r.msg[i] = s.msg[i]) →
    (∀ f, exec (.encode m k t cap) r = .fault f → exec (.encode m k t cap) s = .fault f) ∧
    (∀ r', exec (.encode m k t cap) r = .next r' →
      ∃ s', exec (.encode m k t cap) s = .next s' ∧ s'.status = r'.status ∧ (r'.status = .byte 0x00#8 → s'.par = r'.par))

/-- Frame of `ENCODE` (41_encoder.md R100, R111; 10_state.md R23, R25, R26, R31): it changes `STATUS`, `PAR` if it succeeds, and nothing else. -/
def Obligations.EncodeFrame : Prop :=
  ∀ (m k p cap : Nat) (s t : State), exec (.encode m k p cap) s = .next t →
    t.result = s.result ∧ t.msg = s.msg ∧ t.fault = s.fault ∧ t.pending = s.pending ∧ t.observed = s.observed ∧
    (t.status ≠ .byte 0x00#8 → t.par = s.par)

/-! Commands as a whole -/

/-- 60_exceptions.md R127, R130: a command word faults only as an `ENCODE` that has passed its checks and meets a message cell not written; none is refused. -/
def Obligations.CommandFaults : Prop :=
  ∀ (d : Word) (s : State),
    (∀ f, execute d s = .fault f →
      f = .unwrittenRead ∧ ∃ k cap, decode d = .command (.encode 4 k 4 cap) ∧ k ≤ 11 ∧ 4 ≤ cap ∧
        ∃ i : Fin 16, i.val < k ∧ s.msg[i] = .unwritten) ∧
    (∀ r, execute d s ≠ .refused r)

/-- 60_exceptions.md R128: a failed command is precise: the state after it differs from the state before it only in `STATUS`. -/
def Obligations.FailedCommandPrecise : Prop :=
  ∀ (d : Word) (s t : State), execute d s = .next t → t.status ≠ .byte 0x00#8 → t = { s with status := t.status }

/-- 60_exceptions.md R120, 10_state.md R22: every command that completes leaves in `STATUS` one of the codes 0x00 to 0x07. -/
def Obligations.CommandWritesStatus : Prop :=
  ∀ (d : Word) (s t : State), execute d s = .next t → ∃ c : Byte, c.toNat ≤ 7 ∧ t.status = .byte c

/-- 20_memory.md R48: issuing the same command word twice leaves the same state as issuing it once. -/
def Obligations.CommandTwice : Prop :=
  ∀ (d : Word) (s t : State), execute d s = .next t → execute d t = .next t

/-! The host bus -/

/-- 20_memory.md R42, R44, 10_state.md R34: what a host read answers at every address, and that it changes no state of the block. That the step takes the
transaction off `pending` and records the value in `observed` is the model's choice: log entry 3. -/
def Obligations.HostReads : Prop :=
  ∀ (s : State) (addr : Addr) (rest : List HostEvent), NextRead s addr rest →
    (∀ c : Cell,
      (addr = 0x01#8 ∧ c = s.status) ∨ (addr = 0x02#8 ∧ c = s.result) ∨
        (∃ i : Fin 16, addr.toNat = 0x10 + i.val ∧ c = s.msg[i]) ∨ (∃ j : Fin 4, addr.toNat = 0x20 + j.val ∧ c = s.par[j]) →
      (∀ v : Byte, c = .byte v →
        step s = .next { s with pending := rest, observed := s.observed ++ [v.setWidth 32] }) ∧
      (c = .unwritten → step s = .fault .unwrittenRead)) ∧
    (addr ≠ 0x01#8 ∧ addr ≠ 0x02#8 ∧ ¬ (0x10 ≤ addr.toNat ∧ addr.toNat ≤ 0x1F) ∧ ¬ (0x20 ≤ addr.toNat ∧ addr.toNat ≤ 0x23) →
      step s = .fault (if addr = 0x00#8 then .writeOnlyRead else .unmappedAccess))

/-- 20_memory.md R43, R44: what a host write does at every address: it executes the word, stores a byte of any value in its message cell, or faults with R44's
reason for the address. That the step takes the transaction off `pending` is the model's choice: log entry 3. -/
def Obligations.HostWrites : Prop :=
  ∀ (s : State) (addr : Addr) (d : Word) (rest : List HostEvent), NextWrite s addr d rest →
    (addr = 0x00#8 → step s = execute d { s with pending := rest }) ∧
    (∀ i : Fin 16, addr.toNat = 0x10 + i.val →
      (d.toNat < 256 → step s = .next { s with pending := rest, msg := s.msg.set i.val (.byte (.ofNat 8 d.toNat)) }) ∧
      (256 ≤ d.toNat → step s = .fault .wideData)) ∧
    (addr ≠ 0x00#8 ∧ ¬ (0x10 ≤ addr.toNat ∧ addr.toNat ≤ 0x1F) →
      step s = .fault
        (if addr = 0x01#8 ∨ addr = 0x02#8 ∨ (0x20 ≤ addr.toNat ∧ addr.toNat ≤ 0x23) then .readOnlyWrite else .unmappedAccess))

/-- 20_memory.md R44, 10_state.md R31, 60_exceptions.md R130: the four transactions without meaning and their reasons; none changes the state but for the fault
mark. That the marked state is `afterStep`'s is the model's choice: log entry 9. -/
def Obligations.BusFaults : Prop :=
  ∀ (s : State) (addr : Addr) (d : Word) (rest : List HostEvent),
    ((NextRead s addr rest ∨ NextWrite s addr d rest) →
      ((0x03 ≤ addr.toNat ∧ addr.toNat ≤ 0x0F) ∨ 0x24 ≤ addr.toNat) →
      step s = .fault .unmappedAccess ∧ afterStep s = { s with fault := some .unmappedAccess }) ∧
    (NextWrite s addr d rest → addr = 0x01#8 ∨ addr = 0x02#8 ∨ (0x20 ≤ addr.toNat ∧ addr.toNat ≤ 0x23) →
      step s = .fault .readOnlyWrite ∧ afterStep s = { s with fault := some .readOnlyWrite }) ∧
    (NextRead s addr rest → addr = 0x00#8 →
      step s = .fault .writeOnlyRead ∧ afterStep s = { s with fault := some .writeOnlyRead }) ∧
    (NextWrite s addr d rest → 0x10 ≤ addr.toNat ∧ addr.toNat ≤ 0x1F → d.extractLsb' 8 24 ≠ 0#24 →
      step s = .fault .wideData ∧ afterStep s = { s with fault := some .wideData })

/-- 20_memory.md R49: a read of a message cell right after a write of a byte to it returns that byte. What the host's side records is log entry 3. -/
def Obligations.MessageReadBack : Prop :=
  ∀ (s : State) (addr : Addr) (v : Byte) (rest : List HostEvent),
    NextWrite s addr (v.setWidth 32) (.read addr :: rest) → 0x10 ≤ addr.toNat ∧ addr.toNat ≤ 0x1F →
    ∃ t, step s = .next t ∧ ∃ r, step t = .next r ∧ r.observed = s.observed ++ [v.setWidth 32] ∧ r.pending = rest

/-- 10_state.md R25, 20_memory.md R49: a step changes a message cell only as a host write to that cell, or reset; so no command and no read changes `MSG`. The transaction a step takes is the head of `pending`: log entry 3. -/
def Obligations.OnlyHostWritesMessage : Prop :=
  ∀ (s t : State) (i : Fin 16), step s = .next t → t.msg[i] ≠ s.msg[i] →
    (∃ addr d rest, s.pending = .write addr d :: rest ∧ addr.toNat = 0x10 + i.val ∧ t.msg[i] = .byte (d.extractLsb' 0 8)) ∨
    (∃ rest, s.pending = .reset :: rest ∧ t.msg[i] = .unwritten)

/-- 10_state.md R26, 70_reset_and_hazards.md R147: a step changes `PAR` only as a successful `ENCODE`, or reset; so a later write to `MSG` does not change it. The transaction a step takes is the head of `pending`: log entry 3. -/
def Obligations.OnlyEncodeWritesParity : Prop :=
  ∀ s t : State, step s = .next t → t.par ≠ s.par →
    (∃ d rest k cap, s.pending = .write 0x00#8 d :: rest ∧ decode d = .command (.encode 4 k 4 cap) ∧ t.status = .byte 0x00#8) ∨
    (∃ rest, s.pending = .reset :: rest)

/-- 10_state.md R22, R23: a step changes `STATUS` only as a command or reset, and `RESULT` only as a successful `FIELD_ADD` or `FIELD_MUL_GEN`, or reset. The transaction a step takes is the head of `pending`: log entry 3. -/
def Obligations.OnlyCommandsWriteRegisters : Prop :=
  ∀ s t : State, step s = .next t →
    (t.status ≠ s.status → (∃ d rest, s.pending = .write 0x00#8 d :: rest) ∨ (∃ rest, s.pending = .reset :: rest)) ∧
    (t.result ≠ s.result →
      (∃ d rest a b, s.pending = .write 0x00#8 d :: rest ∧ t.status = .byte 0x00#8 ∧
        (decode d = .command (.fieldAdd 4 a b) ∨ decode d = .command (.fieldMulGen 4 a b))) ∨
      (∃ rest, s.pending = .reset :: rest))

/-- 70_reset_and_hazards.md R144, item 1: after a command completes, the host reads its status code. What the host's side records is log entry 3. -/
def Obligations.StatusReadable : Prop :=
  ∀ (s t : State) (d : Word) (rest : List HostEvent),
    NextWrite s 0x00#8 d (.read 0x01#8 :: rest) → step s = .next t →
    ∃ c : Byte, t.status = .byte c ∧ step t = .next { t with pending := rest, observed := t.observed ++ [c.setWidth 32] }

/-- 70_reset_and_hazards.md R144, item 1, 10_state.md R23: after a successful `FIELD_ADD` or `FIELD_MUL_GEN`, from any state, the host reads `RESULT`, a symbol.
What the host's side records is log entry 3. -/
def Obligations.ResultReadable : Prop :=
  ∀ (s t : State) (d : Word) (rest : List HostEvent) (i : Instr),
    NextWrite s 0x00#8 d (.read 0x02#8 :: rest) → decode d = .command i →
    ((∃ m a b, i = .fieldAdd m a b) ∨ (∃ m a j, i = .fieldMulGen m a j)) → step s = .next t → t.status = .byte 0x00#8 →
    ∃ v : Byte, v.toNat < 16 ∧ t.result = .byte v ∧
      step t = .next { t with pending := rest, observed := t.observed ++ [v.setWidth 32] }

/-- 70_reset_and_hazards.md R144, item 3, 10_state.md R26: after a successful `ENCODE`, from any state, the host reads every `PAR[j]`, a symbol. What the host's
side records is log entry 3. -/
def Obligations.ParityReadable : Prop :=
  ∀ (s t : State) (d : Word) (rest : List HostEvent) (m k p cap : Nat) (addr : Addr) (j : Fin 4),
    addr.toNat = 0x20 + j.val → NextWrite s 0x00#8 d (.read addr :: rest) → decode d = .command (.encode m k p cap) →
    step s = .next t → t.status = .byte 0x00#8 →
    ∃ v : Byte, v.toNat < 16 ∧ t.par[j] = .byte v ∧
      step t = .next { t with pending := rest, observed := t.observed ++ [v.setWidth 32] }

/-! Reset -/

/-- 70_reset_and_hazards.md R140: the state after reset, and the tables, which no state holds. -/
def Obligations.ResetState : Prop :=
  State.reset.status = .unwritten ∧ State.reset.result = .unwritten ∧
  (∀ i : Fin 16, State.reset.msg[i] = .unwritten) ∧ (∀ j : Fin 4, State.reset.par[j] = .unwritten) ∧
  State.reset.fault = none ∧
  (∀ a b : Sym, fadd a b = a ^^^ b) ∧ (∀ a j, genTbl a j = Config.genProd a j)

/-- 70_reset_and_hazards.md R141, 10_state.md R31: where no step has faulted, a later assertion of reset sets every cell as after power-up; in a state with the fault
mark it does nothing, since a faulted run stays faulted. The model's choices in it: that reset stands in the host's sequence and leaves the host's side alone (log
entries 3 and 7), and that a marked state has no step and stays as it is under `afterStep` (log entry 9). -/
def Obligations.ResetEvent : Prop :=
  ∀ (s : State) (rest : List HostEvent), s.pending = .reset :: rest →
    (s.fault = none → step s = .next { State.reset with pending := rest, observed := s.observed }) ∧
    (∀ f, s.fault = some f → afterStep s = s)

/-- 10_state.md R34, 70_reset_and_hazards.md R140: after reset a host read of any readable address faults with `UnwrittenRead`. The host's sequence in the state is log entry 3. -/
def Obligations.ReadsAfterReset : Prop :=
  ∀ (addr : Addr) (rest : List HostEvent),
    addr = 0x01#8 ∨ addr = 0x02#8 ∨ (0x10 ≤ addr.toNat ∧ addr.toNat ≤ 0x1F) ∨ (0x20 ≤ addr.toNat ∧ addr.toNat ≤ 0x23) →
    step (State.launch (.read addr :: rest)) = .fault .unwrittenRead

/-! The invariant -/

/-- 10_state.md R33, 60_exceptions.md R120: the invariant of the written cells holds after reset. -/
def Obligations.InvAtReset : Prop := State.reset.Inv

/-- 10_state.md R23, R33, 60_exceptions.md R120: every step from any state that meets it keeps the invariant: `STATUS` holds a code of R120, `RESULT` and every
`PAR[j]` hold symbols, and what the host has read (log entry 3) are zero extensions of cells. -/
def Obligations.InvStep : Prop :=
  ∀ s t : State, s.Inv → step s = .next t → t.Inv

/-! Host programs -/

/-- 30_encoding.md R69: a command line assembles to one write to `CMD` of a word that decodes to that command; a field too wide is refused. -/
def Obligations.AssembleCommands : Prop :=
  (∀ m a b, if m < 16 ∧ a < 256 ∧ b < 256
    then ∃ d, assembleLine (.fieldAdd m a b) = some [.write 0x00#8 d] ∧ decode d = .command (.fieldAdd m a b)
    else assembleLine (.fieldAdd m a b) = none) ∧
  (∀ m a j, if m < 16 ∧ a < 256 ∧ j < 256
    then ∃ d, assembleLine (.fieldMulGen m a j) = some [.write 0x00#8 d] ∧ decode d = .command (.fieldMulGen m a j)
    else assembleLine (.fieldMulGen m a j) = none) ∧
  (∀ m k t cap, if m < 16 ∧ k < 256 ∧ t < 256 ∧ cap < 256
    then ∃ d, assembleLine (.encode m k t cap) = some [.write 0x00#8 d] ∧ decode d = .command (.encode m k t cap)
    else assembleLine (.encode m k t cap) = none)

/-- 30_encoding.md R69: `LOADMSG v0, …, v(n-1)` is `WMSG 0, v0` to `WMSG n-1, v(n-1)`, in that order. -/
def Obligations.AssembleLoadMessage : Prop :=
  ∀ vs : List Nat, assembleLine (.loadmsg vs) = assemble (vs.mapIdx fun i v => .wmsg i v)

/-- 70_reset_and_hazards.md R145: a run of a program is good exactly when, from launch, each of its transactions answers a next state. The host's sequence is log entry 3, the marked state log entry 9. -/
def Obligations.GoodRunCompletes : Prop :=
  ∀ program : List HostEvent, GoodRun program ↔
    ∃ t, Host.Core.run Sys2Proof.core program.length (State.launch program) = .next t ∧ endOfRun program = t ∧ t.pending = []
end

