-- ==== Sys2Proof/Laws/Encoding.lean ====
section
/-! SUPPORT. The fields of a packed word, and a word as the packing of its fields (30_encoding.md R61). -/
namespace Sys2Proof

section
variable (op m : BitVec 4) (f2 f1 f0 : BitVec 8)

/-- A field of a packed word is found bit by bit, in the part of the concatenation that its bits lie in. -/
@[simp] theorem opField_packWord : opField (packWord op m f2 f1 f0) = op := by
  apply BitVec.eq_of_getLsbD_eq
  intro n hn
  simp only [opField, packWord, BitVec.getLsbD_extractLsb', BitVec.getLsbD_append]
  simp [hn, show ¬ 28 + n < 8 by omega, show ¬ 28 + n - 8 < 8 by omega, show ¬ 28 + n - 8 - 8 < 8 by omega,
    show ¬ 28 + n - 8 - 8 - 8 < 4 by omega, show 28 + n - 8 - 8 - 8 - 4 = n by omega]

@[simp] theorem mField_packWord : mField (packWord op m f2 f1 f0) = m := by
  apply BitVec.eq_of_getLsbD_eq
  intro n hn
  simp only [mField, packWord, BitVec.getLsbD_extractLsb', BitVec.getLsbD_append]
  simp [hn, show ¬ 24 + n < 8 by omega, show ¬ 24 + n - 8 < 8 by omega, show ¬ 24 + n - 8 - 8 < 8 by omega,
    show 24 + n - 8 - 8 - 8 = n by omega]

@[simp] theorem f2Field_packWord : f2Field (packWord op m f2 f1 f0) = f2 := by
  apply BitVec.eq_of_getLsbD_eq
  intro n hn
  simp only [f2Field, packWord, BitVec.getLsbD_extractLsb', BitVec.getLsbD_append]
  simp [hn, show ¬ 16 + n < 8 by omega, show ¬ 16 + n - 8 < 8 by omega, show 16 + n - 8 - 8 = n by omega]

@[simp] theorem f1Field_packWord : f1Field (packWord op m f2 f1 f0) = f1 := by
  apply BitVec.eq_of_getLsbD_eq
  intro n hn
  simp only [f1Field, packWord, BitVec.getLsbD_extractLsb', BitVec.getLsbD_append]
  simp [hn, show ¬ 8 + n < 8 by omega]

@[simp] theorem f0Field_packWord : f0Field (packWord op m f2 f1 f0) = f0 := by
  apply BitVec.eq_of_getLsbD_eq
  intro n hn
  simp only [f0Field, packWord, BitVec.getLsbD_extractLsb', BitVec.getLsbD_append]
  simp [hn]

end

/-- The five fields cover the word: no bit of it is dropped. -/
theorem packWord_fields (d : Word) : packWord (opField d) (mField d) (f2Field d) (f1Field d) (f0Field d) = d := by
  apply BitVec.eq_of_getLsbD_eq
  intro n hn
  simp only [packWord, BitVec.getLsbD_append, opField, mField, f2Field, f1Field, f0Field, BitVec.getLsbD_extractLsb']
  repeat' split
  · simp_all
  · simp_all [show 8 + (n - 8) = n by omega]
  · simp_all [show 16 + (n - 8 - 8) = n by omega]
  · simp_all [show 24 + (n - 8 - 8 - 8) = n by omega]
  · simp_all [show 28 + (n - 8 - 8 - 8 - 4) = n by omega, show n - 8 - 8 - 8 - 4 < 4 by omega]

end Sys2Proof
end

