-- ==== Sys2Proof/Laws/State.lean ====
section
/-! SUPPORT. What each update of the state does to each field. -/
namespace Sys2Proof.Machine

variable (s : State)

@[simp] theorem State.setStatus_status (c : StatusCode) : (s.setStatus c).status = .byte c.byte := rfl
@[simp] theorem State.setStatus_result (c : StatusCode) : (s.setStatus c).result = s.result := rfl
@[simp] theorem State.setStatus_msg (c : StatusCode) : (s.setStatus c).msg = s.msg := rfl
@[simp] theorem State.setStatus_par (c : StatusCode) : (s.setStatus c).par = s.par := rfl
@[simp] theorem State.setStatus_fault (c : StatusCode) : (s.setStatus c).fault = s.fault := rfl
@[simp] theorem State.setStatus_pending (c : StatusCode) : (s.setStatus c).pending = s.pending := rfl
@[simp] theorem State.setStatus_observed (c : StatusCode) : (s.setStatus c).observed = s.observed := rfl

@[simp] theorem State.setResult_status (v : Sym) : (s.setResult v).status = s.status := rfl
@[simp] theorem State.setResult_result (v : Sym) : (s.setResult v).result = .byte (v.setWidth 8) := rfl
@[simp] theorem State.setResult_msg (v : Sym) : (s.setResult v).msg = s.msg := rfl
@[simp] theorem State.setResult_par (v : Sym) : (s.setResult v).par = s.par := rfl
@[simp] theorem State.setResult_fault (v : Sym) : (s.setResult v).fault = s.fault := rfl
@[simp] theorem State.setResult_pending (v : Sym) : (s.setResult v).pending = s.pending := rfl
@[simp] theorem State.setResult_observed (v : Sym) : (s.setResult v).observed = s.observed := rfl

@[simp] theorem State.setMsg_status (i : Fin 16) (v : Byte) : (s.setMsg i v).status = s.status := rfl
@[simp] theorem State.setMsg_result (i : Fin 16) (v : Byte) : (s.setMsg i v).result = s.result := rfl
@[simp] theorem State.setMsg_msg (i : Fin 16) (v : Byte) : (s.setMsg i v).msg = s.msg.set i (.byte v) := rfl
@[simp] theorem State.setMsg_par (i : Fin 16) (v : Byte) : (s.setMsg i v).par = s.par := rfl
@[simp] theorem State.setMsg_fault (i : Fin 16) (v : Byte) : (s.setMsg i v).fault = s.fault := rfl
@[simp] theorem State.setMsg_pending (i : Fin 16) (v : Byte) : (s.setMsg i v).pending = s.pending := rfl
@[simp] theorem State.setMsg_observed (i : Fin 16) (v : Byte) : (s.setMsg i v).observed = s.observed := rfl

@[simp] theorem State.setPar_status (acc : Vector Sym 4) : (s.setPar acc).status = s.status := rfl
@[simp] theorem State.setPar_result (acc : Vector Sym 4) : (s.setPar acc).result = s.result := rfl
@[simp] theorem State.setPar_msg (acc : Vector Sym 4) : (s.setPar acc).msg = s.msg := rfl
@[simp] theorem State.setPar_par (acc : Vector Sym 4) : (s.setPar acc).par = #v[.byte (acc[0].setWidth 8), .byte (acc[1].setWidth 8), .byte (acc[2].setWidth 8), .byte (acc[3].setWidth 8)] := rfl
@[simp] theorem State.setPar_fault (acc : Vector Sym 4) : (s.setPar acc).fault = s.fault := rfl
@[simp] theorem State.setPar_pending (acc : Vector Sym 4) : (s.setPar acc).pending = s.pending := rfl
@[simp] theorem State.setPar_observed (acc : Vector Sym 4) : (s.setPar acc).observed = s.observed := rfl

@[simp] theorem State.observe_status (v : Word) : (s.observe v).status = s.status := rfl
@[simp] theorem State.observe_result (v : Word) : (s.observe v).result = s.result := rfl
@[simp] theorem State.observe_msg (v : Word) : (s.observe v).msg = s.msg := rfl
@[simp] theorem State.observe_par (v : Word) : (s.observe v).par = s.par := rfl
@[simp] theorem State.observe_fault (v : Word) : (s.observe v).fault = s.fault := rfl
@[simp] theorem State.observe_pending (v : Word) : (s.observe v).pending = s.pending := rfl
@[simp] theorem State.observe_observed (v : Word) : (s.observe v).observed = s.observed ++ [v] := rfl

@[simp] theorem State.assertReset_status : s.assertReset.status = .unwritten := rfl
@[simp] theorem State.assertReset_result : s.assertReset.result = .unwritten := rfl
@[simp] theorem State.assertReset_msg : s.assertReset.msg = .replicate 16 .unwritten := rfl
@[simp] theorem State.assertReset_par : s.assertReset.par = .replicate 4 .unwritten := rfl
@[simp] theorem State.assertReset_fault : s.assertReset.fault = s.fault := rfl
@[simp] theorem State.assertReset_pending : s.assertReset.pending = s.pending := rfl
@[simp] theorem State.assertReset_observed : s.assertReset.observed = s.observed := rfl

@[simp] theorem State.mark_status (f : Fault) : (s.mark f).status = s.status := rfl
@[simp] theorem State.mark_result (f : Fault) : (s.mark f).result = s.result := rfl
@[simp] theorem State.mark_msg (f : Fault) : (s.mark f).msg = s.msg := rfl
@[simp] theorem State.mark_par (f : Fault) : (s.mark f).par = s.par := rfl
@[simp] theorem State.mark_fault (f : Fault) : (s.mark f).fault = some (match s.fault with | some g => g | none => f) := rfl
@[simp] theorem State.mark_pending (f : Fault) : (s.mark f).pending = s.pending := rfl
@[simp] theorem State.mark_observed (f : Fault) : (s.mark f).observed = s.observed := rfl

@[simp] theorem issueCommand_status (d : Word) : (issueCommand s d).status = s.status := rfl
@[simp] theorem issueCommand_result (d : Word) : (issueCommand s d).result = s.result := rfl
@[simp] theorem issueCommand_msg (d : Word) : (issueCommand s d).msg = s.msg := rfl
@[simp] theorem issueCommand_par (d : Word) : (issueCommand s d).par = s.par := rfl
@[simp] theorem issueCommand_fault (d : Word) : (issueCommand s d).fault = s.fault := rfl
@[simp] theorem issueCommand_pending (d : Word) : (issueCommand s d).pending = .write 0x00#8 d :: s.pending := rfl
@[simp] theorem issueCommand_observed (d : Word) : (issueCommand s d).observed = s.observed := rfl

theorem State.setStatus_setStatus (c d : StatusCode) : (s.setStatus c).setStatus d = s.setStatus d := rfl
theorem State.setResult_setStatus (c : StatusCode) (v : Sym) : (s.setStatus c).setResult v = (s.setResult v).setStatus c := rfl
theorem State.setPar_setStatus (c : StatusCode) (acc : Vector Sym 4) :
    (s.setStatus c).setPar acc = (s.setPar acc).setStatus c := rfl

end Sys2Proof.Machine
end

