-- ==== Sys2Proof/Laws/Ops.lean ====
section
/-! SUPPORT. What each shared operation, command and transaction can do: the lemmas that later proofs cite instead of unfolding it. -/
namespace Sys2Proof.Machine

/-! Operations and operands -/

@[simp] theorem raise_eq (c : StatusCode) (s : State) : raise c s = .next (s.setStatus c) := rfl

@[simp] theorem succeed_eq (s : State) : succeed s = .next (s.setStatus .ok) := rfl

@[simp] theorem readCell_byte (v : Byte) (s : State) : readCell (.byte v) s = .next (s.observe (v.setWidth 32)) := rfl

@[simp] theorem readCell_unwritten (s : State) : readCell .unwritten s = .fault .unwrittenRead := rfl

theorem readCell_next {c : Cell} {s t : State} (h : readCell c s = .next t) :
    ∃ v, c = .byte v ∧ t = s.observe (v.setWidth 32) := by
  cases c with
  | unwritten => simp at h
  | byte v => exact ⟨v, rfl, by simpa using h.symm⟩

@[simp] theorem symbol?_of_lt {n : Nat} (h : n < 16) : symbol? n = some (.ofNat 4 n) := by simp [symbol?, h]

@[simp] theorem symbol?_of_ge {n : Nat} (h : 16 ≤ n) : symbol? n = none := by simp [symbol?]; omega

@[simp] theorem symbol?_setWidth (a : Sym) : symbol? (a.setWidth 8).toNat = some a := by
  have h : (a.setWidth 8).toNat = a.toNat := by simp; omega
  rw [h, symbol?_of_lt a.isLt]; simp

@[simp] theorem genIndex?_of_lt {n : Nat} (h : n < Config.width) : genIndex? n = some ⟨n, h⟩ := by simp [genIndex?, h]

@[simp] theorem genIndex?_of_ge {n : Nat} (h : Config.width ≤ n) : genIndex? n = none := by simp [genIndex?]; omega

/-! The message -/

theorem readCells_ok_iff {cells : List Cell} {vs : List Byte} : readCells cells = .ok vs ↔ cells = vs.map .byte := by
  induction cells generalizing vs with
  | nil => cases vs <;> simp [readCells]
  | cons c cs ih =>
    cases c with
    | unwritten => cases vs <;> simp [readCells]
    | byte v =>
      cases h : readCells cs with
      | error f =>
        have : ∀ ws : List Byte, cs ≠ ws.map Cell.byte := fun ws e => by simp [ih.mpr e] at h
        cases vs <;> simp [readCells, h, this]
      | ok ws =>
        have hw := ih.mp h
        cases vs with
        | nil => simp [readCells, h]
        | cons u us =>
          have hinj : List.map Cell.byte ws = List.map Cell.byte us ↔ ws = us :=
            List.map_inj_right fun _ _ h => by injection h
          rw [readCells, h, hw]
          simp only [List.map_cons, List.cons.injEq, Except.ok.injEq, Cell.byte.injEq, hinj]

theorem readCells_error_iff {cells : List Cell} {f : Fault} :
    readCells cells = .error f ↔ f = .unwrittenRead ∧ .unwritten ∈ cells := by
  induction cells with
  | nil => simp [readCells]
  | cons c cs ih =>
    cases c with
    | unwritten => simp [readCells, eq_comm]
    | byte v => cases h : readCells cs <;> simp_all [readCells]

theorem symbols?_some_iff {vs : List Byte} {as : List Sym} : symbols? vs = some as ↔ vs = as.map (·.setWidth 8) := by
  induction vs generalizing as with
  | nil => cases as <;> simp [symbols?]
  | cons v vs ih =>
    by_cases hv : v.toNat < 16
    · have hv' : (BitVec.ofNat 4 v.toNat).setWidth 8 = v := by
        apply BitVec.eq_of_toNat_eq; simp; omega
      cases h : symbols? vs with
      | none =>
        have : ∀ bs : List Sym, vs ≠ bs.map (·.setWidth 8) := fun bs e => by simp [ih.mpr e] at h
        cases as <;> simp [symbols?, h, this]
      | some bs =>
        have hb := ih.mp h
        cases as with
        | nil => simp [symbols?, h, hv]
        | cons a as =>
          simp only [symbols?, symbol?_of_lt hv, h, Option.some.injEq, List.cons.injEq, List.map_cons]
          constructor
          · rintro ⟨rfl, rfl⟩; exact ⟨hv'.symm, hb⟩
          · rintro ⟨rfl, h2⟩
            refine ⟨?_, ?_⟩
            · apply BitVec.eq_of_toNat_eq; simp; omega
            · have := ih.mpr h2; rw [h] at this; exact Option.some.inj this
    · have : symbol? v.toNat = none := symbol?_of_ge (by omega)
      cases as with
      | nil => simp [symbols?, this]
      | cons a as =>
        simp only [symbols?, this, List.map_cons, List.cons.injEq, reduceCtorEq, false_iff, not_and]
        rintro rfl; simp at hv; omega

theorem symbols?_none_iff {vs : List Byte} : symbols? vs = none ↔ ∃ v ∈ vs, 16 ≤ v.toNat := by
  induction vs with
  | nil => simp [symbols?]
  | cons v vs ih =>
    by_cases hv : v.toNat < 16
    · have : ¬ 16 ≤ v.toNat := by omega
      cases h : symbols? vs <;> simp_all [symbols?]
    · have hv : 16 ≤ v.toNat := by omega
      simp [symbols?, hv]

/-! Commands -/

/-- A raised status is one of the two ways a command ends. -/
theorem raised {c : StatusCode} {s t : State} (h : raise c s = .next t) (hc : c ≠ .ok) :
    ∃ c, c ≠ .ok ∧ t = s.setStatus c := ⟨c, hc, by simpa using h.symm⟩

/-- `ENCODE` whose checks before the message have passed. -/
theorem execEncode_accepted {k cap : Nat} {s : State} (hk : k ≤ 11) (hc : 4 ≤ cap) :
    execEncode 4 k 4 cap s =
      match readMessage s k with
      | .error f => .fault f
      | .ok bytes =>
        match symbols? bytes with
        | none => raise .outOfRangeSymbol s
        | some message => succeed (s.setPar (convolve fmulg (pad 4 k 4 message))) := by
  have h1 : ¬ 2 ^ 4 - 1 < k + 4 := by omega
  have h2 : ¬ cap < 4 := by omega
  exact (if_neg (by simp)).trans <| (if_neg (by simp)).trans <| (if_neg h1).trans (if_neg h2)

/-- What `ENCODE` does, in the three ways its checks can go (R100, R127). -/
theorem execEncode_cases (m k p cap : Nat) (s : State) :
    (∃ c, c ≠ .ok ∧ execEncode m k p cap s = raise c s) ∨
    (m = 4 ∧ p = 4 ∧ k ≤ 11 ∧ 4 ≤ cap ∧ .unwritten ∈ s.msg.toList.take k ∧ execEncode m k p cap s = .fault .unwrittenRead) ∨
    (m = 4 ∧ p = 4 ∧ k ≤ 11 ∧ 4 ≤ cap ∧ ∃ message : List Sym,
      s.msg.toList.take k = message.map (fun a : Sym => Cell.byte (a.setWidth 8)) ∧
      execEncode m k p cap s = succeed (s.setPar (convolve fmulg (pad 4 k 4 message)))) := by
  rcases Decidable.em (m = 4) with hm | hm
  rotate_left
  · exact .inl ⟨.unsupportedFieldWidth, by decide, by simp only [execEncode, Config.mSupported, ne_eq, hm, not_false_eq_true, if_true]⟩
  rcases Decidable.em (p = 4) with hp | hp
  rotate_left
  · exact .inl ⟨.invalidParityCount, by decide, by simp [execEncode, hm, hp]⟩
  subst hm hp
  by_cases hk : 15 < k + 4
  · exact .inl ⟨.invalidShortening, by decide, by simp [execEncode, hk]⟩
  by_cases hc : cap < 4
  · exact .inl ⟨.bufferTooSmall, by decide, by simp [execEncode, hk, hc]⟩
  have hk : k ≤ 11 := by omega
  have hc : 4 ≤ cap := by omega
  rw [execEncode_accepted hk hc]
  cases hb : readMessage s k with
  | error f =>
    obtain ⟨rfl, hu⟩ := readCells_error_iff.mp hb
    exact .inr (.inl ⟨rfl, rfl, hk, hc, hu, rfl⟩)
  | ok bytes =>
    cases hs : symbols? bytes with
    | none => exact .inl ⟨.outOfRangeSymbol, by decide, by simp [hs]⟩
    | some message =>
      refine .inr (.inr ⟨rfl, rfl, hk, hc, message, ?_, by simp [hs]⟩)
      rw [readCells_ok_iff.mp hb, symbols?_some_iff.mp hs, List.map_map]; rfl

/-- What a command that answers a next state has done: raised a status, written a result, or written the parity (R12, R120). -/
theorem exec_next {i : Instr} {s t : State} (h : exec i s = .next t) :
    (∃ c, c ≠ .ok ∧ t = s.setStatus c) ∨
    (∃ v, t = (s.setResult v).setStatus .ok ∧ ∀ m k p cap, i ≠ .encode m k p cap) ∨
    (∃ k cap message, i = .encode 4 k 4 cap ∧ k ≤ 11 ∧ 4 ≤ cap ∧
      s.msg.toList.take k = message.map (fun a : Sym => .byte (a.setWidth 8)) ∧
      t = (s.setPar (convolve fmulg (pad 4 k 4 message))).setStatus .ok) := by
  cases i with
  | fieldAdd m a b =>
    simp only [exec, execFieldAdd] at h
    repeat' split at h
    · exact .inl (raised h (by decide))
    · exact .inr (.inl ⟨_, by simpa using h.symm, by simp⟩)
    · exact .inl (raised h (by decide))
  | fieldMulGen m a j =>
    simp only [exec, execFieldMulGen] at h
    repeat' split at h
    · exact .inl (raised h (by decide))
    · exact .inl (raised h (by decide))
    · exact .inl (raised h (by decide))
    · exact .inr (.inl ⟨_, by simpa using h.symm, by simp⟩)
  | encode m k p cap =>
    rcases execEncode_cases m k p cap s with ⟨c, hc, he⟩ | ⟨_, _, _, _, _, he⟩ | ⟨rfl, rfl, hk, hc, message, hmsg, he⟩
    · exact .inl (raised (he.symm.trans h) hc)
    · exact absurd (he.symm.trans h) (by simp)
    · exact .inr (.inr ⟨k, cap, message, rfl, hk, hc, hmsg, by simpa using (he.symm.trans h).symm⟩)

/-- A command faults only where `ENCODE` reads a message cell that is not written (R103, R130). -/
theorem exec_fault {i : Instr} {s : State} {f : Fault} (h : exec i s = .fault f) :
    f = .unwrittenRead ∧ ∃ k cap, i = .encode 4 k 4 cap ∧ k ≤ 11 ∧ 4 ≤ cap ∧ .unwritten ∈ s.msg.toList.take k := by
  cases i with
  | fieldAdd m a b =>
    simp only [exec, execFieldAdd] at h
    repeat' split at h
    all_goals simp at h
  | fieldMulGen m a j =>
    simp only [exec, execFieldMulGen] at h
    repeat' split at h
    all_goals simp at h
  | encode m k p cap =>
    rcases execEncode_cases m k p cap s with ⟨c, hc, he⟩ | ⟨rfl, rfl, hk, hc, hu, he⟩ | ⟨_, _, _, _, _, _, he⟩
    · exact absurd (he.symm.trans h) (by simp)
    · exact ⟨by simpa using (he.symm.trans h).symm, k, cap, rfl, hk, hc, hu⟩
    · exact absurd (he.symm.trans h) (by simp)

/-- No command is refused. -/
theorem exec_not_refused (i : Instr) (s : State) (r : Refusal) : exec i s ≠ .refused r := by
  cases i with
  | fieldAdd m a b =>
    simp only [exec, execFieldAdd]
    repeat' split
    all_goals simp
  | fieldMulGen m a j =>
    simp only [exec, execFieldMulGen]
    repeat' split
    all_goals simp
  | encode m k p cap =>
    simp only [exec, execEncode]
    repeat' split
    all_goals simp

end Sys2Proof.Machine
end

