-- ==== Sys2Proof/Laws/PerInstr.lean ====
section
/-! SUPPORT. Facts about each command as syntax. -/
namespace Sys2Proof.Laws.RowOf

/-- The word of a command lies in the command's row of the opcode map (30_encoding.md R66). -/
def Statement (i : Instr) : Prop := encode i &&& rowMask i = rowMatch i

/-- `and` of two words acts on each of their five fields. -/
theorem packWord_and (op m op' m' : BitVec 4) (f2 f1 f0 f2' f1' f0' : BitVec 8) :
    packWord op m f2 f1 f0 &&& packWord op' m' f2' f1' f0' =
      packWord (op &&& op') (m &&& m') (f2 &&& f2') (f1 &&& f1') (f0 &&& f0') := by
  apply BitVec.eq_of_getLsbD_eq
  intro n _
  simp only [packWord, BitVec.getLsbD_and, BitVec.getLsbD_append]
  repeat' split
  all_goals rfl

theorem mask_F0FF : 0xF0FF0000#32 = packWord 0xF#4 0#4 0xFF#8 0#8 0#8 := by decide
theorem mask_F000 : 0xF0000000#32 = packWord 0xF#4 0#4 0#8 0#8 0#8 := by decide

theorem fieldAdd (m a b : Nat) : Statement (.fieldAdd m a b) := by
  simp only [Statement, rowMask, rowMatch, encode, mask_F0FF, packWord_and, BitVec.and_zero]; decide

theorem fieldMulGen (m a j : Nat) : Statement (.fieldMulGen m a j) := by
  simp only [Statement, rowMask, rowMatch, encode, mask_F0FF, packWord_and, BitVec.and_zero]; decide

theorem encode (m k t cap : Nat) : Statement (.encode m k t cap) := by
  simp only [Statement, rowMask, rowMatch, Sys2Proof.encode, mask_F000, packWord_and, BitVec.and_zero]; decide

end Sys2Proof.Laws.RowOf
end

