-- ==== Sys2Proof/Laws/Step.lean ====
section
/-! SUPPORT. The bus and the step: what each transaction and each step can do. -/
namespace Sys2Proof.Machine

/-! The address map (R41) -/

theorem busPlace_cmd {addr : Addr} : busPlace addr = .cmd ↔ addr.toNat = 0x00 := by
  simp only [busPlace]; repeat' split
  all_goals simp_all

theorem busPlace_status {addr : Addr} : busPlace addr = .status ↔ addr.toNat = 0x01 := by
  simp only [busPlace]; repeat' split
  all_goals simp_all

theorem busPlace_result {addr : Addr} : busPlace addr = .result ↔ addr.toNat = 0x02 := by
  simp only [busPlace]; repeat' split
  all_goals simp_all

theorem busPlace_msg {addr : Addr} {i : Fin 16} : busPlace addr = .msg i ↔ addr.toNat = 0x10 + i.val := by
  have := i.isLt
  simp only [busPlace]; repeat' split
  all_goals simp_all [Fin.ext_iff]
  all_goals omega

theorem busPlace_par {addr : Addr} {j : Fin 4} : busPlace addr = .par j ↔ addr.toNat = 0x20 + j.val := by
  have := j.isLt
  simp only [busPlace]; repeat' split
  all_goals simp_all [Fin.ext_iff]
  all_goals omega

theorem busPlace_reserved {addr : Addr} :
    busPlace addr = .reserved ↔ (3 ≤ addr.toNat ∧ addr.toNat < 0x10) ∨ 0x24 ≤ addr.toNat := by
  simp only [busPlace]; repeat' split
  all_goals simp_all
  all_goals omega

/-! Transactions -/

theorem hostRead_next {addr : Addr} {s t : State} (h : hostRead addr s = .next t) : ∃ v : Byte, t = s.observe (v.setWidth 32) := by
  unfold hostRead at h
  split at h
  · cases h
  · obtain ⟨v, _, rfl⟩ := readCell_next h; exact ⟨v, rfl⟩
  · obtain ⟨v, _, rfl⟩ := readCell_next h; exact ⟨v, rfl⟩
  · obtain ⟨v, _, rfl⟩ := readCell_next h; exact ⟨v, rfl⟩
  · obtain ⟨v, _, rfl⟩ := readCell_next h; exact ⟨v, rfl⟩
  · cases h

theorem execute_command {d : Word} {i : Instr} (h : decode d = .command i) (s : State) : execute d s = exec i s := by
  simp [execute, h]

theorem execute_illegal {d : Word} {e : DecodeError} (h : decode d = .illegal e) (s : State) :
    execute d s = .next (s.setStatus .illegalCommand) := by
  simp [execute, h]

theorem execute_next {d : Word} {s t : State} (h : execute d s = .next t) :
    (∃ c, c ≠ .ok ∧ t = s.setStatus c) ∨
    (∃ i v, decode d = .command i ∧ t = (s.setResult v).setStatus .ok ∧ ∀ m k p cap, i ≠ .encode m k p cap) ∨
    (∃ k cap message, decode d = .command (.encode 4 k 4 cap) ∧ k ≤ 11 ∧ 4 ≤ cap ∧
      s.msg.toList.take k = message.map (fun a : Sym => .byte (a.setWidth 8)) ∧
      t = (s.setPar (convolve fmulg (pad 4 k 4 message))).setStatus .ok) := by
  unfold execute at h
  split at h
  · rename_i i hd
    rcases exec_next h with h | ⟨v, h, hi⟩ | ⟨k, cap, message, rfl, h'⟩
    · exact .inl h
    · exact .inr (.inl ⟨i, v, hd, h, hi⟩)
    · exact .inr (.inr ⟨k, cap, message, hd, h'⟩)
  · exact .inl (raised h (by decide))

theorem writeMessage_next {i : Fin 16} {d : Word} {s t : State} (h : writeMessage i d s = .next t) :
    d.extractLsb' 8 24 = 0#24 ∧ t = s.setMsg i (d.extractLsb' 0 8) := by
  unfold writeMessage at h
  split at h
  · rename_i hd; exact ⟨hd, by simpa using h.symm⟩
  · cases h

theorem hostWrite_next {addr : Addr} {d : Word} {s t : State} (h : hostWrite addr d s = .next t) :
    (addr = 0x00#8 ∧ execute d s = .next t) ∨
    (∃ i : Fin 16, addr.toNat = 0x10 + i.val ∧ d.extractLsb' 8 24 = 0#24 ∧ t = s.setMsg i (d.extractLsb' 0 8)) := by
  unfold hostWrite at h
  split at h
  · rename_i hp
    exact .inl ⟨BitVec.eq_of_toNat_eq (by simpa using busPlace_cmd.mp hp), h⟩
  · cases h
  · cases h
  · rename_i i hp
    exact .inr ⟨i, busPlace_msg.mp hp, writeMessage_next h⟩
  · cases h
  · cases h

/-! Steps -/

@[simp] theorem step_of_fault {s : State} {f : Fault} (h : s.fault = some f) : step s = .fault f := by
  simp [step, stepBlock, h]

theorem step_of_good {s : State} (h : s.fault = none) : step s = takeEvent s := by simp [step, stepBlock, h]

theorem step_cons {s : State} {e : HostEvent} {rest : List HostEvent} (h : s.fault = none) (hp : s.pending = e :: rest) :
    step s = handle e { s with pending := rest } := by simp [step_of_good h, takeEvent, hp]

/-- Everything a step that answers a next state can have done. -/
theorem step_next {s t : State} (h : step s = .next t) :
    s.fault = none ∧
    ((s.pending = [] ∧ t = s) ∨
     (∃ e rest, s.pending = e :: rest ∧ handle e { s with pending := rest } = .next t)) := by
  cases hf : s.fault with
  | some f => simp [hf] at h
  | none =>
    refine ⟨rfl, ?_⟩
    cases hp : s.pending with
    | nil => rw [step_of_good hf, takeEvent, hp] at h; exact .inl ⟨rfl, by simpa using h.symm⟩
    | cons e rest => rw [step_cons hf hp, hf] at h; exact .inr ⟨e, rest, rfl, h⟩

end Sys2Proof.Machine
end

