-- ==== Sys2Proof/Machine/AssemblyText.lean ====
section
/-!
DEFINITION. The text of host programs (30_encoding.md R69): one line each, `;` starts a comment, numbers are decimal or hexadecimal with `0x`. What R69 does not say
of the text (spaces and tabs between words, mnemonics in capitals only) is this model's. DESIGN CHOICE (log entry 8).
-/
namespace Sys2Proof.Machine

/-- A part of a line: a run of characters, or the comma between operands. -/
inductive AsmToken where
  | text (cs : List Char)
  | comma
  deriving DecidableEq, Repr

/-- The run read so far, last character first, put before the tokens that follow it. -/
def flushRun (run : List Char) (rest : List AsmToken) : List AsmToken :=
  match run with
  | [] => rest
  | _ :: _ => .text run.reverse :: rest

/-- The tokens of a line, up to its comment. -/
def asmTokens (line run : List Char) : List AsmToken :=
  match line with
  | [] => flushRun run []
  | c :: cs =>
    if c = ';' then flushRun run []
    else if c = ' ' ∨ c = '\t' then flushRun run (asmTokens cs [])
    else if c = ',' then flushRun run (.comma :: asmTokens cs [])
    else asmTokens cs (c :: run)

/-- The value of a digit in a base of at most 16. -/
def digit? (base : Nat) (c : Char) : Option Nat :=
  let n := c.toNat
  let v :=
    if '0'.toNat ≤ n ∧ n ≤ '9'.toNat then n - '0'.toNat
    else if 'a'.toNat ≤ n ∧ n ≤ 'f'.toNat then n - 'a'.toNat + 10
    else if 'A'.toNat ≤ n ∧ n ≤ 'F'.toNat then n - 'A'.toNat + 10
    else 16
  if v < base then some v else none

/-- The digits of a number, most significant first, after the value already read. -/
def digits? (base acc : Nat) (cs : List Char) : Option Nat :=
  match cs with
  | [] => some acc
  | c :: rest =>
    match digit? base c with
    | some v => digits? base (base * acc + v) rest
    | none => none

/-- A number: decimal, or hexadecimal with `0x`. -/
def number? (cs : List Char) : Option Nat :=
  match cs with
  | [] => none
  | ['0', 'x'] => none
  | '0' :: 'x' :: rest => digits? 16 0 rest
  | c :: rest => digits? 10 0 (c :: rest)

/-- Operands: numbers separated by commas. -/
def operands? (ts : List AsmToken) : Option (List Nat) :=
  match ts with
  | [.text cs] =>
    match number? cs with
    | some n => some [n]
    | none => none
  | .text cs :: .comma :: rest =>
    match number? cs, operands? rest with
    | some n, some ns => some (n :: ns)
    | _, _ => none
  | _ => none

/-- The operands of a line that may have none. -/
def operandsOrNone? (ts : List AsmToken) : Option (List Nat) :=
  match ts with
  | [] => some []
  | _ :: _ => operands? ts

/-- The line of a mnemonic and its operands (R69). -/
def lineOf? (mnemonic : List Char) (ops : List Nat) : Option AsmLine :=
  match ops with
  | [] =>
    if mnemonic = ['R', 'S', 'T', 'A', 'T', 'U', 'S'] then some .rstatus
    else if mnemonic = ['R', 'R', 'E', 'S', 'U', 'L', 'T'] then some .rresult
    else none
  | x :: rest =>
    if mnemonic = ['L', 'O', 'A', 'D', 'M', 'S', 'G'] then some (.loadmsg (x :: rest))
    else
      match rest with
      | [] =>
        if mnemonic = ['R', 'D'] then some (.rd x)
        else if mnemonic = ['R', 'P', 'A', 'R'] then some (.rpar x)
        else none
      | [y] =>
        if mnemonic = ['W', 'R'] then some (.wr x y)
        else if mnemonic = ['W', 'M', 'S', 'G'] then some (.wmsg x y)
        else none
      | [y, z] =>
        if mnemonic = ['F', 'I', 'E', 'L', 'D', '_', 'A', 'D', 'D'] then some (.fieldAdd x y z)
        else if mnemonic = ['F', 'I', 'E', 'L', 'D', '_', 'M', 'U', 'L', '_', 'G', 'E', 'N'] then some (.fieldMulGen x y z)
        else none
      | [y, z, w] =>
        if mnemonic = ['E', 'N', 'C', 'O', 'D', 'E'] then some (.encode x y z w) else none
      | _ => none

/-- What a line of text is: nothing (blank, or a comment only), a line, or no line at all. -/
inductive AsmRead where
  | blank
  | line (l : AsmLine)
  | bad
  deriving DecidableEq, Repr

/-- A line of text, read. -/
def readLine (text : List Char) : AsmRead :=
  match asmTokens text [] with
  | [] => .blank
  | .comma :: _ => .bad
  | .text mnemonic :: rest =>
    match operandsOrNone? rest with
    | none => .bad
    | some ops =>
      match lineOf? mnemonic ops with
      | some l => .line l
      | none => .bad

/-- The lines of a program's text. -/
def readProgram (texts : List (List Char)) : Option (List AsmLine) :=
  match texts with
  | [] => some []
  | t :: rest =>
    match readLine t, readProgram rest with
    | .blank, p => p
    | .line l, some ls => some (l :: ls)
    | .line _, none => none
    | .bad, _ => none

/-- The transactions of a program's text. -/
def assembleText (texts : List (List Char)) : Option (List HostEvent) :=
  match readProgram texts with
  | some ls => assemble ls
  | none => none

end Sys2Proof.Machine
end

