-- ==== Sys2Proof/Tests/Slice0.lean ====
section
/-!
SUPPORT. Small tests, their expected results from the spec's own vectors (95_test_vectors.md) or its rules, and for each statement with hypotheses a
concrete case that meets them.
-/
namespace Sys2Proof.Tests
open Sys2Proof Sys2Proof.Machine Sys2Proof.Spec

/-! Well-formedness: a term each check refuses, and one at the edge that is taken -/

theorem test_wf_addWidth : (Instr.fieldAdd 16 0 0).wellFormed = false := by decide
theorem test_wf_addA : (Instr.fieldAdd 4 256 0).wellFormed = false := by decide
theorem test_wf_addB : (Instr.fieldAdd 4 0 256).wellFormed = false := by decide
theorem test_wf_mulWidth : (Instr.fieldMulGen 16 0 0).wellFormed = false := by decide
theorem test_wf_mulA : (Instr.fieldMulGen 4 256 0).wellFormed = false := by decide
theorem test_wf_mulJ : (Instr.fieldMulGen 4 0 256).wellFormed = false := by decide
theorem test_wf_encodeWidth : (Instr.encode 16 0 4 4).wellFormed = false := by decide
theorem test_wf_encodeK : (Instr.encode 4 256 4 4).wellFormed = false := by decide
theorem test_wf_encodeT : (Instr.encode 4 0 256 4).wellFormed = false := by decide
theorem test_wf_encodeCap : (Instr.encode 4 0 4 256).wellFormed = false := by decide
theorem test_wf_edge : (Instr.encode 15 255 255 255).wellFormed = true := by decide

/-! Decoding: words bit by bit (R62, R63, R64) and the vectors of 95 2.1 -/

theorem test_decode_fieldAdd : decode 0b00010100000000000000001100000101#32 = .command (.fieldAdd 4 3 5) := by decide
theorem test_decode_fieldMulGen : decode 0b00100100000000000000011100000010#32 = .command (.fieldMulGen 4 7 2) := by decide
theorem test_decode_encode : decode 0b00110100000010100000010000000100#32 = .command (.encode 4 10 4 4) := by decide
theorem test_decode_zero : decode 0x00000000#32 = .illegal .reservedOpcode := by decide
theorem test_decode_opF : decode 0xF0000000#32 = .illegal .reservedOpcode := by decide
theorem test_decode_addReserved : decode 0x14010305#32 = .illegal .reservedBits := by decide
theorem test_decode_mulReserved : decode 0x24FF0000#32 = .illegal .reservedBits := by decide
theorem test_encode_word : encode (.encode 4 10 4 4) = 0x340A0404#32 := by decide
theorem test_decode_tableWord : decodeTableWord 32 0x24000702 = some (.fieldMulGen 4 7 2) := by decide

/-! Small states -/

/-- After reset, with this event next. -/
def next (e : HostEvent) : State := State.launch [e]

/-- After reset, with `MSG[0]` and `MSG[1]` written. -/
def twoCells (a b : Byte) : State := (State.reset.setMsg 0 a).setMsg 1 b

/-- What an answer says of a field, if it is a next state. -/
def after {α : Type} (f : State → α) (r : Answer) : Option α :=
  match r with
  | .next t => some (f t)
  | .fault _ => none
  | .refused _ => none

/-- The fault of an answer. -/
def faultOf (r : Answer) : Option Fault :=
  match r with
  | .next _ => none
  | .fault f => some f
  | .refused _ => none

/-! Commands: vectors of 95 2.1 to 2.4 that hold for every `GEN_PROD` -/

theorem test_fieldAdd_result : after (fun t => (t.result, t.status)) (step (next (.write 0 0x14000C07#32))) =
    some (.byte 11#8, .byte 0#8) := by decide
theorem test_fieldAdd_widthFirst : after (fun t => (t.result, t.status)) (step (next (.write 0 0x15001000#32))) =
    some (.unwritten, .byte 1#8) := by decide
theorem test_fieldMulGen_symbolFirst : after State.status (step (next (.write 0 0x24001004#32))) = some (.byte 4#8) := by decide
theorem test_fieldMulGen_index : after State.status (step (next (.write 0 0x24000104#32))) = some (.byte 6#8) := by decide
theorem test_encode_shortening : after State.status (exec (.encode 4 12 4 4) State.reset) = some (.byte 2#8) := by decide
theorem test_encode_countFirst : after State.status (exec (.encode 4 255 255 255) State.reset) = some (.byte 5#8) := by decide
theorem test_encode_outOfRange : after (fun t => (t.status, t.par)) (exec (.encode 4 2 4 4) (twoCells 3#8 200#8)) =
    some (.byte 4#8, State.reset.par) := by decide
theorem test_encode_unwritten : faultOf (step (next (.write 0 0x34010404#32))) = some .unwrittenRead := by decide
theorem test_illegal : after State.status (step (next (.write 0 0x54000000#32))) = some (.byte 7#8) := by decide

/-! The convolution under the non-normative `GEN_PROD_I` (95 2.0 and 2.4) -/

theorem test_exampleTable_row7 : ∀ j : Fin 4, Config.exampleGenerator.prod 7 j = #v[11#4, 9#4, 7#4, 2#4][j] := by decide
theorem test_exampleTable_row15 : ∀ j : Fin 4, Config.exampleGenerator.prod 15 j = #v[10#4, 2#4, 15#4, 8#4][j] := by decide
theorem test_convolve_reference : convolve Config.exampleGenerator.prod (pad 4 10 4 [2, 5, 6, 6, 0, 11, 15, 12, 1, 11]) = #v[14, 15, 10, 14] := by decide +kernel
theorem test_convolve_sequence : convolve Config.exampleGenerator.prod (pad 4 11 4 [1, 2, 3, 4, 5, 6, 7, 8, 9, 10, 11]) = #v[3, 3, 12, 12] := by decide +kernel

/-! The bus (95 2.5) -/

theorem test_read_status : faultOf (step (next (.read 0x01#8))) = some .unwrittenRead := by decide
theorem test_write_wide : faultOf (step (next (.write 0x10#8 0x107#32))) = some .wideData := by decide
theorem test_write_last : after (fun t => t.msg[15]) (step (next (.write 0x1F#8 0xFF#32))) = some (.byte 255#8) := by decide
theorem test_write_parity : faultOf (step (next (.write 0x20#8 0#32))) = some .readOnlyWrite := by decide
theorem test_read_command : faultOf (step (next (.read 0x00#8))) = some .writeOnlyRead := by decide
theorem test_read_hole : faultOf (step (next (.read 0x24#8))) = some .unmappedAccess := by decide
theorem test_negative_program : (endOfRun [.write 0 0x34020404#32]).fault = some .unwrittenRead := by decide

/-! Host programs (R69) -/

/-- `WR 0x00, 0x54000000 ; OP` -/
theorem test_text_write : readLine ['W', 'R', ' ', '0', 'x', '0', '0', ',', ' ', '0', 'x', '5', '4', '0', '0', '0', '0', '0', '0', ' ', ';', ' ', 'O', 'P'] =
    .line (.wr 0 0x54000000) := by decide
/-- `LOADMSG 2,15` -/
theorem test_text_load : assembleText [['L', 'O', 'A', 'D', 'M', 'S', 'G', ' ', '2', ',', '1', '5']] =
    some [.write 0x10#8 2#32, .write 0x11#8 15#32] := by decide
theorem test_assemble_encode : assemble [.encode 4 10 4 4, .rpar 3] = some [.write 0 0x340A0404#32, .read 0x23#8] := by decide
theorem test_assemble_wide : assemble [.fieldAdd 4 256 0] = none := by decide

/-! Witnesses: for each statement with hypotheses, concrete cases that meet them, one for each clause -/

theorem witness_DecodeEncode : (Instr.encode 15 255 0 255).WellFormed := by decide
theorem witness_EncodeDecode : decode 0x1F00FFFF#32 = .command (.fieldAdd 15 255 255) := by decide
theorem witness_IllegalWords : ∃ e, decode 0x4FFFFFFF#32 = .illegal e := ⟨.reservedOpcode, by decide⟩
theorem witness_IllegalWords_bits : ∃ e, decode 0x24010000#32 = .illegal e := ⟨.reservedBits, by decide⟩
theorem witness_StepRunsCommand : NextWrite (next (.write 0 0x14000F0F#32)) 0x00#8 0x14000F0F#32 [] ∧
    decode 0x14000F0F#32 = .command (.fieldAdd 4 15 15) := ⟨⟨rfl, rfl⟩, by decide⟩
theorem witness_StepRunsFetchedWord : State.reset.fault = none ∧ decodeTableWord 32 0x30000000 = some (.encode 0 0 0 0) := by decide
theorem witness_FaultMark : step (next (.read 0x03#8)) = .fault .unmappedAccess ∧ (next (.read 0x03#8)).fault = none := ⟨rfl, rfl⟩
theorem witness_FaultMark_set : (State.reset.mark .wideData).fault = some .wideData := rfl
theorem witness_FaultMark_next : step State.reset = .next State.reset := rfl
theorem witness_WaitsForHost : State.reset.fault = none ∧ State.reset.pending = [] := ⟨rfl, rfl⟩

theorem witness_GenTableColumnsInjective : ∀ j : Fin 4, genTbl 7 j = genTbl 7 j := fun _ => rfl
theorem witness_FieldAdd_width : (5 : Nat) ≠ 4 := by decide
theorem witness_FieldAdd_range : (4 : Nat) = 4 ∧ (16 ≤ 16 ∨ 16 ≤ 0) := by decide
theorem witness_FieldAdd_result : 15 < 16 ∧ 0 < 16 ∧ (4 : Nat) = 4 := by decide
theorem witness_FieldAddXor : 15 < 16 ∧ 15 < 16 := by decide
theorem witness_FieldMulGen_width : (0 : Nat) ≠ 4 := by decide
theorem witness_FieldMulGen_symbol : (4 : Nat) = 4 ∧ 16 ≤ 16 := by decide
theorem witness_FieldMulGen_index : (4 : Nat) = 4 ∧ 15 < 16 ∧ 4 ≤ 4 := by decide
theorem witness_FieldMulGen_result : 3 < 4 ∧ (4 : Nat) = 4 ∧ 15 < 16 := by decide
theorem witness_FieldMulGen_zero : (4 : Nat) = 4 ∧ (0 : Nat) = 0 ∧ 3 < 4 := by decide
theorem witness_FieldFrame : exec (.fieldAdd 4 3 5) State.reset = .next ((State.reset.setResult 6).setStatus .ok) := rfl
theorem witness_FieldFrame_failed : exec (.fieldMulGen 4 1 4) State.reset = .next (State.reset.setStatus .invalidGenIndex) := rfl

theorem witness_EncodeChecks_width : (5 : Nat) ≠ 4 := by decide
theorem witness_EncodeChecks_count : (4 : Nat) = 4 ∧ (3 : Nat) ≠ 4 := by decide
theorem witness_EncodeChecks_shortening : (4 : Nat) = 4 ∧ 15 < 12 + 4 := by decide
theorem witness_EncodeChecks_capacity : (4 : Nat) = 4 ∧ 11 + 4 ≤ 15 ∧ 3 < 4 := by decide
theorem witness_EncodeChecks_unwritten : 1 + 4 ≤ 15 ∧ 4 ≤ 4 ∧ ∃ i : Fin 16, i.val < 1 ∧ State.reset.msg[i] = .unwritten := by decide
theorem witness_EncodeChecks_range : 2 + 4 ≤ 15 ∧ 4 ≤ 4 ∧ (∀ i : Fin 16, i.val < 2 → (twoCells 3#8 16#8).msg[i] ≠ .unwritten) ∧
    ∃ (i : Fin 16) (v : Byte), i.val < 2 ∧ (twoCells 3#8 16#8).msg[i] = .byte v ∧ 16 ≤ v.toNat :=
  ⟨by decide, by decide, by decide, 1, 16#8, by decide, by decide, by decide⟩
theorem witness_EncodeComputes : 2 ≤ 11 ∧ 4 ≤ 255 ∧ HoldsMessage (twoCells 5#8 9#8) 2 (fun n => if n = 0 then 5 else 9) := by
  unfold HoldsMessage; decide

/-- Eleven cells of one symbol: the longest legal message. -/
def elevenCells (v : Byte) : State := { State.reset with msg :=
  #v[.byte v, .byte v, .byte v, .byte v, .byte v, .byte v, .byte v, .byte v, .byte v, .byte v, .byte v,
    .unwritten, .unwritten, .unwritten, .unwritten, .unwritten] }

theorem witness_EncodeComputes_longest : 11 ≤ 11 ∧ 4 ≤ 4 ∧ HoldsMessage (elevenCells 15#8) 11 (fun _ => 15) := by unfold HoldsMessage; decide
theorem witness_EncodePadding : 11 ≤ 11 ∧ 4 ≤ 4 ∧ HoldsMessage (elevenCells 1#8) 11 (fun _ => 1) := by unfold HoldsMessage; decide
theorem witness_EncodePadding_length : 11 ≤ 11 ∧ (List.replicate 11 (0 : Sym)).length = 11 := by decide
theorem witness_EncodeShortMessages : (twoCells 5#8 9#8).msg[0] = .byte ((5 : Sym).setWidth 8) ∧
    (twoCells 5#8 9#8).msg[1] = .byte ((9 : Sym).setWidth 8) := by decide
theorem witness_EncodeZeroMessage : 11 ≤ 11 ∧ 4 ≤ 4 ∧ HoldsMessage (elevenCells 0#8) 11 (fun _ => 0) := by unfold HoldsMessage; decide
theorem witness_EncodeZeroMessage_empty : 0 ≤ 11 ∧ 4 ≤ 4 ∧ HoldsMessage State.reset 0 (fun _ => 0) := by unfold HoldsMessage; decide
theorem witness_EncodeLinear : 2 ≤ 11 ∧ HoldsMessage (twoCells 1#8 2#8) 2 (fun n => if n = 0 then 1 else 2) ∧
    HoldsMessage (twoCells 4#8 4#8) 2 (fun _ => 4) ∧
    HoldsMessage (twoCells 5#8 6#8) 2 (fun n => (if n = 0 then 1 else 2) ^^^ 4) := by
  unfold HoldsMessage; decide
theorem witness_EncodeReadsItsMessageOnly : ∀ i : Fin 16, i.val < 1 → (twoCells 5#8 9#8).msg[i] = (twoCells 5#8 200#8).msg[i] := by decide
theorem witness_EncodeReadsItsMessageOnly_fault : exec (.encode 4 1 4 4) State.reset = .fault .unwrittenRead := rfl
theorem witness_EncodeFrame : ∃ t, exec (.encode 4 1 4 4) (twoCells 5#8 9#8) = .next t ∧ t.status = .byte 0#8 := ⟨_, rfl, rfl⟩
theorem witness_EncodeFrame_failed : exec (.encode 4 12 4 4) State.reset = .next (State.reset.setStatus .invalidShortening) := rfl

theorem witness_CommandFaults : execute 0x34010404#32 State.reset = .fault .unwrittenRead := rfl
theorem witness_FailedCommandPrecise : execute 0x54000000#32 State.reset = .next (State.reset.setStatus .illegalCommand) ∧
    (State.reset.setStatus .illegalCommand).status ≠ .byte 0x00#8 := ⟨rfl, by decide⟩
theorem witness_CommandWritesStatus : ∃ t, execute 0x14000305#32 State.reset = .next t := ⟨_, rfl⟩
theorem witness_CommandTwice : ∃ t, execute 0x34010404#32 (twoCells 5#8 9#8) = .next t := ⟨_, rfl⟩

theorem witness_HostReads : NextRead (next (.read 0x1F#8)) 0x1F#8 [] ∧ (0x1F#8).toNat = 0x10 + (15 : Fin 16).val ∧
    .unwritten = (next (.read 0x1F#8)).msg[(15 : Fin 16)] := ⟨⟨rfl, rfl⟩, by decide, by decide⟩
theorem witness_HostReads_value : NextRead { twoCells 5#8 9#8 with pending := [.read 0x10#8] } 0x10#8 [] ∧
    (twoCells 5#8 9#8).msg[(0 : Fin 16)] = .byte 5#8 := ⟨⟨rfl, rfl⟩, by decide⟩
theorem witness_HostReads_other : NextRead (next (.read 0x24#8)) 0x24#8 [] ∧ ¬ (0x20 ≤ (0x24#8).toNat ∧ (0x24#8).toNat ≤ 0x23) :=
  ⟨⟨rfl, rfl⟩, by decide⟩
theorem witness_HostWrites : NextWrite (next (.write 0x00#8 0#32)) 0x00#8 0#32 [] := ⟨rfl, rfl⟩
theorem witness_HostWrites_stores : NextWrite (next (.write 0x1F#8 0xFF#32)) 0x1F#8 0xFF#32 [] ∧
    (0x1F#8).toNat = 0x10 + (15 : Fin 16).val ∧ (0xFF#32).toNat < 256 := ⟨⟨rfl, rfl⟩, by decide, by decide⟩
theorem witness_HostWrites_wide : NextWrite (next (.write 0x10#8 0x100#32)) 0x10#8 0x100#32 [] ∧
    (0x10#8).toNat = 0x10 + (0 : Fin 16).val ∧ 256 ≤ (0x100#32).toNat := ⟨⟨rfl, rfl⟩, by decide, by decide⟩
theorem witness_HostWrites_other : NextWrite (next (.write 0x20#8 0#32)) 0x20#8 0#32 [] ∧
    0x20#8 ≠ 0x00#8 ∧ ¬ (0x10 ≤ (0x20#8).toNat ∧ (0x20#8).toNat ≤ 0x1F) := ⟨⟨rfl, rfl⟩, by decide, by decide⟩
theorem witness_HostWrites_reserved : NextWrite (next (.write 0x24#8 0#32)) 0x24#8 0#32 [] ∧
    ¬ (0x24#8 = 0x01#8 ∨ 0x24#8 = 0x02#8 ∨ (0x20 ≤ (0x24#8).toNat ∧ (0x24#8).toNat ≤ 0x23)) := ⟨⟨rfl, rfl⟩, by decide⟩
theorem witness_BusFaults_low : NextRead (next (.read 0x0F#8)) 0x0F#8 [] ∧ 0x03 ≤ (0x0F#8).toNat ∧ (0x0F#8).toNat ≤ 0x0F := ⟨⟨rfl, rfl⟩, by decide⟩
theorem witness_BusFaults_high : NextWrite (next (.write 0xFF#8 0#32)) 0xFF#8 0#32 [] ∧ 0x24 ≤ (0xFF#8).toNat := ⟨⟨rfl, rfl⟩, by decide⟩
theorem witness_BusFaults_readOnly : NextWrite (next (.write 0x23#8 0#32)) 0x23#8 0#32 [] ∧ 0x20 ≤ (0x23#8).toNat ∧ (0x23#8).toNat ≤ 0x23 :=
  ⟨⟨rfl, rfl⟩, by decide⟩
theorem witness_BusFaults_command : NextRead (next (.read 0x00#8)) 0x00#8 [] := ⟨rfl, rfl⟩
theorem witness_BusFaults_wide : NextWrite (next (.write 0x1F#8 0x80000000#32)) 0x1F#8 0x80000000#32 [] ∧
    (0x10 ≤ (0x1F#8).toNat ∧ (0x1F#8).toNat ≤ 0x1F) ∧ (0x80000000#32).extractLsb' 8 24 ≠ 0#24 := ⟨⟨rfl, rfl⟩, by decide, by decide⟩
theorem witness_MessageReadBack : NextWrite (State.launch [.write 0x10#8 255#32, .read 0x10#8]) 0x10#8 ((255#8).setWidth 32) [.read 0x10#8] :=
  ⟨rfl, rfl⟩
theorem witness_OnlyHostWritesMessage : step (next (.write 0x10#8 7#32)) = .next (State.reset.setMsg 0 7#8) ∧
    (State.reset.setMsg 0 7#8).msg[(0 : Fin 16)] ≠ (next (.write 0x10#8 7#32)).msg[(0 : Fin 16)] := ⟨rfl, by decide⟩
theorem witness_OnlyHostWritesMessage_reset : step { twoCells 5#8 9#8 with pending := [.reset] } = .next State.reset ∧
    State.reset.msg[(1 : Fin 16)] ≠ (twoCells 5#8 9#8).msg[(1 : Fin 16)] := ⟨rfl, by decide⟩
theorem witness_OnlyEncodeWritesParity : ∃ t, step (next (.write 0 0x34000404#32)) = .next t ∧ t.par ≠ (next (.write 0 0x34000404#32)).par :=
  ⟨_, rfl, fun h => by simpa [State.launch, State.reset, next] using congrArg (·[0]) h⟩
theorem witness_OnlyCommandsWriteRegisters : ∃ t, step (next (.write 0 0x14000305#32)) = .next t ∧ t.status ≠ .unwritten ∧ t.result ≠ .unwritten :=
  ⟨_, rfl, by decide, by decide⟩
theorem witness_StatusReadable : NextWrite (State.launch [.write 0 0x14000305#32, .read 0x01#8]) 0x00#8 0x14000305#32 [.read 0x01#8] ∧
    ∃ t, step (State.launch [.write 0 0x14000305#32, .read 0x01#8]) = .next t := ⟨⟨rfl, rfl⟩, _, rfl⟩
theorem witness_ResultReadable : NextWrite (State.launch [.write 0 0x14000305#32, .read 0x02#8]) 0x00#8 0x14000305#32 [.read 0x02#8] ∧
    decode 0x14000305#32 = .command (.fieldAdd 4 3 5) ∧
    ∃ t, step (State.launch [.write 0 0x14000305#32, .read 0x02#8]) = .next t ∧ t.status = .byte 0x00#8 :=
  ⟨⟨rfl, rfl⟩, by decide, _, rfl, rfl⟩
theorem witness_ParityReadable : (0x23#8).toNat = 0x20 + (3 : Fin 4).val ∧
    NextWrite (State.launch [.write 0 0x34000404#32, .read 0x23#8]) 0x00#8 0x34000404#32 [.read 0x23#8] ∧
    decode 0x34000404#32 = .command (.encode 4 0 4 4) ∧
    ∃ t, step (State.launch [.write 0 0x34000404#32, .read 0x23#8]) = .next t ∧ t.status = .byte 0x00#8 :=
  ⟨by decide, ⟨rfl, rfl⟩, by decide, _, rfl, rfl⟩
theorem witness_ResetEvent : (next .reset).pending = [.reset] ∧ (next .reset).fault = none := ⟨rfl, rfl⟩
theorem witness_ResetEvent_marked : ((next .reset).mark .wideData).pending = [.reset] ∧ ((next .reset).mark .wideData).fault = some .wideData := ⟨rfl, rfl⟩
theorem witness_ReadsAfterReset : 0x20 ≤ (0x23#8).toNat ∧ (0x23#8).toNat ≤ 0x23 := by decide
theorem witness_InvStep : State.reset.Inv ∧ step State.reset = .next State.reset := ⟨by decide, rfl⟩
theorem witness_AssembleCommands : 15 < 16 ∧ 255 < 256 ∧ 255 < 256 := by decide
theorem witness_AssembleCommands_refused : ¬ (4 < 16 ∧ 256 < 256 ∧ 0 < 256) := by decide
theorem witness_GoodRunCompletes : GoodRun [.write 0 0x14000305#32, .read 0x02#8] := by decide

end Sys2Proof.Tests
end

section
/-! The field multiplication of a generator (00_scope.md R6, constraint 2): what its laws say of one fixed factor. -/
namespace Sys2Proof.Config.Generator

variable (g : Config.Generator)

theorem zero_mul (c : Sym) : g.mul 0 c = 0 := by
  simpa using g.xor_mul 0 0 c

theorem mul_mul_inv_cancel (a : Sym) {c : Sym} (hc : c ≠ 0) : g.mul (g.mul a c) (g.inv c) = a := by
  rw [g.mul_assoc, g.mul_inv c hc, g.mul_one]

theorem mul_zero (a : Sym) : g.mul a 0 = 0 := by
  rw [g.mul_comm, g.zero_mul]

theorem mul_right_cancel {a b c : Sym} (hc : c ≠ 0) (h : g.mul a c = g.mul b c) : a = b := by
  rw [← g.mul_mul_inv_cancel a hc, h, g.mul_mul_inv_cancel b hc]

end Sys2Proof.Config.Generator
end

section
/-! The product table (40_field_arith.md R84), by the laws of the generator behind it. -/
namespace Sys2Proof.Machine

theorem genTbl_eq_mul (a : Sym) (j : Fin 4) : genTbl a j = Config.generator.mul a (Config.generator.coeff j) := rfl

@[simp] theorem genTbl_zero (j : Fin 4) : genTbl 0 j = 0 := by
  rw [genTbl_eq_mul, Config.Generator.zero_mul]

theorem genTbl_xor (a b : Sym) (j : Fin 4) : genTbl (a ^^^ b) j = genTbl a j ^^^ genTbl b j := by
  simp only [genTbl_eq_mul, Config.generator.xor_mul]

theorem genTbl_of_coeff_eq_zero {j : Fin 4} (hj : Config.generator.coeff j = 0) (a : Sym) : genTbl a j = 0 := by
  rw [genTbl_eq_mul, hj, Config.Generator.mul_zero]

theorem genTbl_inj_of_coeff_ne_zero {j : Fin 4} (hj : Config.generator.coeff j ≠ 0) {a b : Sym}
    (h : genTbl a j = genTbl b j) : a = b :=
  Config.generator.mul_right_cancel hj h

/-- Settles O12: row zero and linearity by distributivity, the field by the generator behind the table. -/
theorem genTableConstraints : Obligations.GenTableConstraints := by
  unfold Obligations.GenTableConstraints
  refine ⟨genTbl_zero, genTbl_xor, Config.generator.mul, Config.generator.one, Config.generator.coeff, genTbl_eq_mul, ?_⟩
  exact ⟨Config.generator.one_ne_zero, Config.generator.mul_one, Config.generator.mul_comm, Config.generator.mul_assoc,
    Config.generator.xor_mul, fun a ha => ⟨Config.generator.inv a, Config.generator.mul_inv a ha⟩⟩

/-- Settles O13: a zero coefficient makes its column zero, and any other can be cancelled. -/
theorem genTableColumnsInjective : Obligations.GenTableColumnsInjective := by
  intro j
  by_cases hj : Config.generator.coeff j = 0
  · exact .inl (genTbl_of_coeff_eq_zero hj)
  · exact .inr fun _ _ => genTbl_inj_of_coeff_ne_zero hj

end Sys2Proof.Machine
end

section
/-! The two field commands (40_field_arith.md R82, R88): the two ways in which one of them ends. -/
namespace Sys2Proof.Machine

/-- A command other than `ENCODE` ends by raising a status or by writing a result. -/
theorem exec_next_of_ne_encode {i : Instr} {s t : State} (hi : ∀ m k p cap, i ≠ .encode m k p cap)
    (h : exec i s = .next t) :
    (∃ c, c ≠ .ok ∧ t = s.setStatus c) ∨ ∃ v, t = (s.setResult v).setStatus .ok := by
  rcases exec_next h with hraised | ⟨v, ht, -⟩ | ⟨k, cap, _, hencode, -⟩
  · exact .inl hraised
  · exact .inr ⟨v, ht⟩
  · exact absurd hencode (hi 4 k 4 cap)

/-- Settles O17: a raised status leaves `RESULT`, and only success, with `STATUS` 0, writes it. -/
theorem fieldFrame : Obligations.FieldFrame := by
  intro i s t hfield h
  have hi : ∀ m k p cap, i ≠ .encode m k p cap := by
    rintro m k p cap rfl
    simp at hfield
  rcases exec_next_of_ne_encode hi h with ⟨c, -, rfl⟩ | ⟨v, rfl⟩
  · simp
  · simp [StatusCode.byte]

end Sys2Proof.Machine
end

section
/-! Cells and status codes: the facts of their values that the invariant and the reads of registers rest on (60_exceptions.md R120, 10_state.md R33). -/
namespace Sys2Proof.Machine

theorem StatusCode.byte_toNat_le (c : StatusCode) : c.byte.toNat ≤ 7 := by
  cases c <;> decide

theorem StatusCode.byte_eq_zero_iff {c : StatusCode} : c.byte = 0x00#8 ↔ c = .ok := by
  cases c <;> decide

@[simp] theorem Cell.below_unwritten (n : Nat) : Cell.unwritten.below n = true := rfl

@[simp] theorem Cell.below_byte {n : Nat} {v : Byte} : (Cell.byte v).below n = true ↔ v.toNat < n := by
  simp [Cell.below]

theorem symbol_setWidth_toNat_lt (a : Sym) : (a.setWidth 8).toNat < 16 := by
  simp only [BitVec.toNat_setWidth]; omega

theorem byte_setWidth_toNat_lt (v : Byte) : (v.setWidth 32).toNat < 2 ^ 8 := by
  simp only [BitVec.toNat_setWidth]; omega

theorem State.setPar_getElem (s : State) (acc : Vector Sym 4) (j : Fin 4) :
    (s.setPar acc).par[j] = .byte (acc[j].setWidth 8) := by
  fin_cases j <;> rfl

end Sys2Proof.Machine
end

section
/-! Commands: what each command leaves unchanged, and the status it leaves (10_state.md R22, R23, R26; 60_exceptions.md R120). -/
namespace Sys2Proof.Machine

theorem execute_next_status {d : Word} {s t : State} (h : execute d s = .next t) : ∃ c : StatusCode, t.status = .byte c.byte := by
  rcases execute_next h with ⟨c, -, rfl⟩ | ⟨_, _, _, rfl, -⟩ | ⟨_, _, _, _, _, _, _, rfl⟩
  · exact ⟨c, rfl⟩
  · exact ⟨.ok, rfl⟩
  · exact ⟨.ok, rfl⟩

/-- No command touches the message, the fault mark or the host's side. -/
theorem execute_next_frame {d : Word} {s t : State} (h : execute d s = .next t) :
    t.msg = s.msg ∧ t.fault = s.fault ∧ t.pending = s.pending ∧ t.observed = s.observed := by
  rcases execute_next h with ⟨_, -, rfl⟩ | ⟨_, _, _, rfl, -⟩ | ⟨_, _, _, _, _, _, _, rfl⟩ <;> simp

/-- A raised status is not 0, so a command that leaves 0 has succeeded. -/
theorem setStatus_status_ne_zero {c : StatusCode} (hc : c ≠ .ok) (s : State) : (s.setStatus c).status ≠ .byte 0x00#8 := by
  simpa [StatusCode.byte_eq_zero_iff] using hc

theorem exec_fieldAdd_of_ne {m : Nat} (hm : m ≠ 4) (a b : Nat) (s : State) :
    exec (.fieldAdd m a b) s = .next (s.setStatus .unsupportedFieldWidth) := by
  simp [exec, execFieldAdd, hm]

theorem exec_fieldMulGen_of_ne {m : Nat} (hm : m ≠ 4) (a j : Nat) (s : State) :
    exec (.fieldMulGen m a j) s = .next (s.setStatus .unsupportedFieldWidth) := by
  simp [exec, execFieldMulGen, hm]

/-- A command that ends with status 0 and is no `ENCODE` is a field command of the supported width (R82, R88). -/
theorem field_of_exec_ok {i : Instr} {s t : State} (hi : ∀ m k p cap, i ≠ .encode m k p cap) (h : exec i s = .next t)
    (hok : t.status = .byte 0x00#8) : ∃ a b, i = .fieldAdd 4 a b ∨ i = .fieldMulGen 4 a b := by
  have hwidth : exec i s ≠ .next (s.setStatus .unsupportedFieldWidth) := by
    rw [h]
    rintro ⟨⟩
    exact setStatus_status_ne_zero (by decide) s hok
  cases i with
  | fieldAdd m a b =>
    have hm : m = 4 := by_contra fun hm => hwidth (exec_fieldAdd_of_ne hm a b s)
    exact ⟨a, b, .inl (by rw [hm])⟩
  | fieldMulGen m a j =>
    have hm : m = 4 := by_contra fun hm => hwidth (exec_fieldMulGen_of_ne hm a j s)
    exact ⟨a, j, .inr (by rw [hm])⟩
  | encode m k p cap => exact absurd rfl (hi m k p cap)

/-- `ENCODE` ends by raising a status or by writing the parity. -/
theorem exec_encode_next {m k p cap : Nat} {s t : State} (h : exec (.encode m k p cap) s = .next t) :
    (∃ c, c ≠ .ok ∧ t = s.setStatus c) ∨ ∃ acc, t = (s.setPar acc).setStatus .ok := by
  rcases exec_next h with hraised | ⟨_, -, hi⟩ | ⟨_, _, _, _, _, _, _, ht⟩
  · exact .inl hraised
  · exact absurd rfl (hi m k p cap)
  · exact .inr ⟨_, ht⟩

theorem result_of_exec_ok {i : Instr} {s t : State} (hi : ∀ m k p cap, i ≠ .encode m k p cap) (h : exec i s = .next t)
    (hok : t.status = .byte 0x00#8) : ∃ v : Sym, t.result = .byte (v.setWidth 8) := by
  rcases exec_next_of_ne_encode hi h with ⟨c, hc, rfl⟩ | ⟨v, rfl⟩
  · exact absurd hok (setStatus_status_ne_zero hc s)
  · exact ⟨v, rfl⟩

theorem par_of_exec_encode_ok {m k p cap : Nat} {s t : State} (h : exec (.encode m k p cap) s = .next t)
    (hok : t.status = .byte 0x00#8) (j : Fin 4) : ∃ v : Sym, t.par[j] = .byte (v.setWidth 8) := by
  rcases exec_encode_next h with ⟨c, hc, rfl⟩ | ⟨acc, rfl⟩
  · exact absurd hok (setStatus_status_ne_zero hc s)
  · exact ⟨acc[j], s.setPar_getElem acc j⟩

/-- `RESULT` changes only by a field command that leaves status 0 (R23). -/
theorem execute_result_ne {d : Word} {s t : State} (h : execute d s = .next t) (hne : t.result ≠ s.result) :
    t.status = .byte 0x00#8 ∧ ∃ a b, decode d = .command (.fieldAdd 4 a b) ∨ decode d = .command (.fieldMulGen 4 a b) := by
  rcases execute_next h with ⟨_, -, rfl⟩ | ⟨i, v, hd, rfl, hi⟩ | ⟨_, _, _, _, _, _, _, rfl⟩
  · exact absurd rfl hne
  · rw [execute_command hd] at h
    obtain ⟨a, b, rfl | rfl⟩ := field_of_exec_ok hi h rfl
    · exact ⟨rfl, a, b, .inl hd⟩
    · exact ⟨rfl, a, b, .inr hd⟩
  · exact absurd rfl hne

/-- `PAR` changes only by an `ENCODE` that leaves status 0 (R26). -/
theorem execute_par_ne {d : Word} {s t : State} (h : execute d s = .next t) (hne : t.par ≠ s.par) :
    t.status = .byte 0x00#8 ∧ ∃ k cap, decode d = .command (.encode 4 k 4 cap) := by
  rcases execute_next h with ⟨_, -, rfl⟩ | ⟨_, _, _, rfl, -⟩ | ⟨k, cap, _, hd, _, _, _, rfl⟩
  · exact absurd rfl hne
  · exact absurd rfl hne
  · exact ⟨rfl, k, cap, hd⟩

/-- Settles O25: a raised status leaves `PAR`, and only success, with `STATUS` 0, writes it. -/
theorem encodeFrame : Obligations.EncodeFrame := by
  intro m k p cap s t h
  rcases exec_encode_next h with ⟨c, -, rfl⟩ | ⟨acc, rfl⟩
  · simp
  · simp [StatusCode.byte]

/-- Settles O28: the status left is the byte of one of the eight codes. -/
theorem commandWritesStatus : Obligations.CommandWritesStatus := by
  intro d s t h
  obtain ⟨c, hc⟩ := execute_next_status h
  exact ⟨c.byte, c.byte_toNat_le, hc⟩

end Sys2Proof.Machine
end

section
/-! Host reads and writes, address by address (20_memory.md R42, R43, R44). -/
namespace Sys2Proof.Machine
open Sys2Proof.Spec

/-- The cell that a readable address names (R41, R42). `hostRead_of_namesCell` ties it to the bus. -/
def State.NamesCell (s : State) (addr : Addr) (c : Cell) : Prop :=
  (addr = 0x01#8 ∧ c = s.status) ∨ (addr = 0x02#8 ∧ c = s.result) ∨
    (∃ i : Fin 16, addr.toNat = 0x10 + i.val ∧ c = s.msg[i]) ∨ (∃ j : Fin 4, addr.toNat = 0x20 + j.val ∧ c = s.par[j])

theorem hostRead_of_namesCell {s : State} {addr : Addr} {c : Cell} (h : s.NamesCell addr c) : hostRead addr s = readCell c s := by
  rcases h with ⟨rfl, rfl⟩ | ⟨rfl, rfl⟩ | ⟨i, hi, rfl⟩ | ⟨j, hj, rfl⟩
  · rfl
  · rfl
  · simp only [hostRead, busPlace_msg.mpr hi]
  · simp only [hostRead, busPlace_par.mpr hj]

/-- An address of the message range is that of one cell. -/
theorem exists_msg_index {addr : Addr} (h : 0x10 ≤ addr.toNat ∧ addr.toNat ≤ 0x1F) : ∃ i : Fin 16, addr.toNat = 0x10 + i.val :=
  ⟨⟨addr.toNat - 0x10, by omega⟩, by simp only; omega⟩

/-- An address of the parity range is that of one cell. -/
theorem exists_par_index {addr : Addr} (h : 0x20 ≤ addr.toNat ∧ addr.toNat ≤ 0x23) : ∃ j : Fin 4, addr.toNat = 0x20 + j.val :=
  ⟨⟨addr.toNat - 0x20, by omega⟩, by simp only; omega⟩

theorem hostRead_reserved {addr : Addr} (h : (3 ≤ addr.toNat ∧ addr.toNat < 0x10) ∨ 0x24 ≤ addr.toNat) (s : State) :
    hostRead addr s = .fault .unmappedAccess := by
  simp only [hostRead, busPlace_reserved.mpr h]

theorem hostWrite_reserved {addr : Addr} (h : (3 ≤ addr.toNat ∧ addr.toNat < 0x10) ∨ 0x24 ≤ addr.toNat) (d : Word) (s : State) :
    hostWrite addr d s = .fault .unmappedAccess := by
  simp only [hostWrite, busPlace_reserved.mpr h]

theorem hostWrite_readOnly {addr : Addr} (h : addr = 0x01#8 ∨ addr = 0x02#8 ∨ (0x20 ≤ addr.toNat ∧ addr.toNat ≤ 0x23)) (d : Word)
    (s : State) : hostWrite addr d s = .fault .readOnlyWrite := by
  rcases h with rfl | rfl | hpar
  · rfl
  · rfl
  · obtain ⟨j, hj⟩ := exists_par_index hpar
    simp only [hostWrite, busPlace_par.mpr hj]

theorem hostWrite_msg {addr : Addr} {i : Fin 16} (hi : addr.toNat = 0x10 + i.val) (d : Word) (s : State) :
    hostWrite addr d s = writeMessage i d s := by
  simp only [hostWrite, busPlace_msg.mpr hi]

theorem writeMessage_wide {d : Word} (hd : d.extractLsb' 8 24 ≠ 0#24) (i : Fin 16) (s : State) :
    writeMessage i d s = .fault .wideData := by
  simp [writeMessage, hd]

/-- The zero extension of a byte is stored as that byte. -/
theorem writeMessage_byte (v : Byte) (i : Fin 16) (s : State) : writeMessage i (v.setWidth 32) s = .next (s.setMsg i v) := by
  have hhigh : (v.setWidth 32).extractLsb' 8 24 = 0#24 := by
    ext n hn
    simp
  have hlow : (v.setWidth 32).extractLsb' 0 8 = v := by
    rw [BitVec.extractLsb'_setWidth_of_le (by decide), BitVec.extractLsb'_eq_self]
  simp only [writeMessage, hhigh, if_true, hlow]

theorem step_of_nextRead {s : State} {addr : Addr} {rest : List HostEvent} (h : NextRead s addr rest) :
    step s = hostRead addr { s with pending := rest } := by
  obtain ⟨hgood, hpending⟩ := h
  exact step_cons hgood hpending

theorem step_of_nextWrite {s : State} {addr : Addr} {d : Word} {rest : List HostEvent} (h : NextWrite s addr d rest) :
    step s = hostWrite addr d { s with pending := rest } := by
  obtain ⟨hgood, hpending⟩ := h
  exact step_cons hgood hpending

theorem step_of_nextCommand {s : State} {d : Word} {rest : List HostEvent} (h : NextWrite s 0x00#8 d rest) :
    step s = execute d { s with pending := rest } := step_of_nextWrite h

theorem step_read_cell {s : State} {addr : Addr} {c : Cell} {rest : List HostEvent} (hs : NextRead s addr rest)
    (hc : s.NamesCell addr c) : step s = readCell c { s with pending := rest } :=
  (step_of_nextRead hs).trans (hostRead_of_namesCell hc)

theorem step_read_byte {s : State} {addr : Addr} {v : Byte} {rest : List HostEvent} (hs : NextRead s addr rest)
    (hv : s.NamesCell addr (.byte v)) :
    step s = .next { s with pending := rest, observed := s.observed ++ [v.setWidth 32] } := step_read_cell hs hv

theorem step_read_unwritten {s : State} {addr : Addr} {rest : List HostEvent} (hs : NextRead s addr rest)
    (hu : s.NamesCell addr .unwritten) : step s = .fault .unwrittenRead := step_read_cell hs hu

/-- Settles O30: a readable address answers as its cell does, and of the others only `CMD` is not reserved. -/
theorem hostReads : Obligations.HostReads := by
  intro s addr rest hs
  refine ⟨fun c hc => ⟨?_, ?_⟩, ?_⟩
  · rintro v rfl
    exact step_read_byte hs hc
  · rintro rfl
    exact step_read_unwritten hs hc
  · rintro ⟨hstatus, hresult, hmsg, hpar⟩
    rw [step_of_nextRead hs]
    by_cases hcmd : addr = 0x00#8
    · subst hcmd
      rfl
    · rw [if_neg hcmd]
      exact hostRead_reserved (by bv_omega) _

/-- Settles O40: after reset every cell that an address names is `⊥`. -/
theorem readsAfterReset : Obligations.ReadsAfterReset := by
  intro addr rest haddr
  refine step_read_unwritten (rest := rest) ⟨rfl, rfl⟩ ?_
  rcases haddr with rfl | rfl | hmsg | hpar
  · exact .inl ⟨rfl, rfl⟩
  · exact .inr (.inl ⟨rfl, rfl⟩)
  · obtain ⟨i, hi⟩ := exists_msg_index hmsg
    exact .inr (.inr (.inl ⟨i, hi, by simp [State.launch, State.reset]⟩))
  · obtain ⟨j, hj⟩ := exists_par_index hpar
    exact .inr (.inr (.inr ⟨j, hj, by simp [State.launch, State.reset]⟩))

/-- Settles O33: the write stores the byte in the cell that the read then names. -/
theorem messageReadBack : Obligations.MessageReadBack := by
  intro s addr v rest hs haddr
  obtain ⟨i, hi⟩ := exists_msg_index haddr
  have hwrite : step s = .next ({ s with pending := .read addr :: rest }.setMsg i v) := by
    rw [step_of_nextWrite hs, hostWrite_msg hi, writeMessage_byte]
  obtain ⟨hgood, -⟩ := hs
  refine ⟨_, hwrite, _, step_read_byte (rest := rest) (v := v) ⟨hgood, rfl⟩ ?_, rfl, rfl⟩
  exact .inr (.inr (.inl ⟨i, hi, by simp⟩))

end Sys2Proof.Machine
end

section
/-! What the host reads after a command (70_reset_and_hazards.md R144). -/
namespace Sys2Proof.Machine
open Sys2Proof.Spec

/-- After a command the host's next transaction is the one that stood behind it. -/
theorem nextRead_after_command {s t : State} {d : Word} {addr : Addr} {rest : List HostEvent}
    (hs : NextWrite s 0x00#8 d (.read addr :: rest)) (h : step s = .next t) : NextRead t addr rest := by
  rw [step_of_nextCommand hs] at h
  obtain ⟨-, hfault, hpending, -⟩ := execute_next_frame h
  obtain ⟨hgood, -⟩ := hs
  exact ⟨hfault.trans hgood, hpending⟩

theorem exec_of_nextCommand {s t : State} {d : Word} {rest : List HostEvent} {i : Instr} (hs : NextWrite s 0x00#8 d rest)
    (hd : decode d = .command i) (h : step s = .next t) : exec i { s with pending := rest } = .next t := by
  rw [← execute_command hd, ← step_of_nextCommand hs, h]

/-- Settles O37: every command that completes writes `STATUS`, and the read of a written cell answers. -/
theorem statusReadable : Obligations.StatusReadable := by
  intro s t d rest hs h
  obtain ⟨c, hc⟩ := execute_next_status ((step_of_nextCommand hs).symm.trans h)
  exact ⟨c.byte, hc, step_read_byte (nextRead_after_command hs h) (.inl ⟨rfl, hc.symm⟩)⟩

/-- Settles O46: status 0 says that the field command has written its symbol to `RESULT`. -/
theorem resultReadable : Obligations.ResultReadable := by
  intro s t d rest i hs hd hfield h hok
  have hi : ∀ m k p cap, i ≠ .encode m k p cap := by
    rintro m k p cap rfl
    simp at hfield
  obtain ⟨v, hv⟩ := result_of_exec_ok hi (exec_of_nextCommand hs hd h) hok
  exact ⟨v.setWidth 8, symbol_setWidth_toNat_lt v, hv,
    step_read_byte (nextRead_after_command hs h) (.inr (.inl ⟨rfl, hv.symm⟩))⟩

/-- Settles O47: status 0 says that `ENCODE` has written a symbol to every `PAR[j]`. -/
theorem parityReadable : Obligations.ParityReadable := by
  intro s t d rest m k p cap addr j haddr hs hd h hok
  obtain ⟨v, hv⟩ := par_of_exec_encode_ok (exec_of_nextCommand hs hd h) hok j
  exact ⟨v.setWidth 8, symbol_setWidth_toNat_lt v, hv,
    step_read_byte (nextRead_after_command hs h) (.inr (.inr (.inr ⟨j, haddr, hv.symm⟩)))⟩

end Sys2Proof.Machine
end

section
/-! The one case analysis of a step, and what it says of each field (20_memory.md R47, R49). -/
namespace Sys2Proof.Machine

/-- The five things that a step with a next state can be. -/
inductive StepEffect (s t : State) : Prop where
  /-- The host has issued nothing (R143). -/
  | waits (hpending : s.pending = []) (ht : t = s)
  /-- A host read that answered (R42). -/
  | reads (addr : Addr) (rest : List HostEvent) (v : Byte) (hpending : s.pending = .read addr :: rest)
      (ht : t = { s with pending := rest }.observe (v.setWidth 32))
  /-- A command word that completed (R60). -/
  | runs (d : Word) (rest : List HostEvent) (hpending : s.pending = .write 0x00#8 d :: rest)
      (hexecute : execute d { s with pending := rest } = .next t)
  /-- A host write to a message cell (R43). -/
  | stores (addr : Addr) (d : Word) (rest : List HostEvent) (i : Fin 16) (hpending : s.pending = .write addr d :: rest)
      (haddr : addr.toNat = 0x10 + i.val) (ht : t = { s with pending := rest }.setMsg i (d.extractLsb' 0 8))
  /-- An assertion of reset (R141). -/
  | resets (rest : List HostEvent) (hpending : s.pending = .reset :: rest) (ht : t = { s with pending := rest }.assertReset)

theorem stepEffect_of_step {s t : State} (h : step s = .next t) : StepEffect s t := by
  obtain ⟨-, ⟨hp, rfl⟩ | ⟨e, rest, hp, hhandle⟩⟩ := step_next h
  · exact .waits hp rfl
  cases e with
  | read addr =>
    obtain ⟨v, rfl⟩ := hostRead_next hhandle
    exact .reads addr rest v hp rfl
  | write addr d =>
    rcases hostWrite_next hhandle with ⟨rfl, hexecute⟩ | ⟨i, hi, -, rfl⟩
    · exact .runs d rest hp hexecute
    · exact .stores addr d rest i hp hi rfl
  | reset =>
    cases hhandle
    exact .resets rest hp rfl

theorem step_next_good {s t : State} (h : step s = .next t) : s.fault = none ∧ t.fault = none := by
  obtain ⟨hgood, -⟩ := step_next h
  refine ⟨hgood, ?_⟩
  cases stepEffect_of_step h with
  | waits _ ht => rw [ht, hgood]
  | reads _ _ _ _ ht => rw [ht]; exact hgood
  | runs _ _ _ hexecute =>
    obtain ⟨-, hfault, -, -⟩ := execute_next_frame hexecute
    exact hfault.trans hgood
  | stores _ _ _ _ _ _ ht => rw [ht]; exact hgood
  | resets _ _ ht => rw [ht]; exact hgood

/-- A step takes one transaction off the host's sequence. -/
theorem step_next_pending {s t : State} (h : step s = .next t) : t.pending = s.pending.tail := by
  cases stepEffect_of_step h with
  | waits hp ht => rw [ht, hp]; rfl
  | reads _ _ _ hp ht => rw [ht, hp]; rfl
  | runs _ _ hp hexecute =>
    obtain ⟨-, -, hpending, -⟩ := execute_next_frame hexecute
    rw [hpending, hp]; rfl
  | stores _ _ _ _ hp _ ht => rw [ht, hp]; rfl
  | resets _ hp ht => rw [ht, hp]; rfl

/-- Settles O34: of the five effects only a store to this cell and reset touch it. -/
theorem onlyHostWritesMessage : Obligations.OnlyHostWritesMessage := by
  intro s t i h hne
  cases stepEffect_of_step h with
  | waits _ ht => exact absurd (by rw [ht]) hne
  | reads _ _ _ _ ht => exact absurd (by rw [ht]; rfl) hne
  | runs _ _ _ hexecute =>
    obtain ⟨hmsg, -, -, -⟩ := execute_next_frame hexecute
    exact absurd (by rw [hmsg]) hne
  | stores addr d rest k hp haddr ht =>
    subst ht
    by_cases hik : k = i
    · subst hik
      exact .inl ⟨addr, d, rest, hp, haddr, by simp⟩
    · have hval : k.val ≠ i.val := fun hval => hik (Fin.ext hval)
      exact absurd (by simp [Vector.getElem_set_ne, hval]) hne
  | resets rest hp ht => exact .inr ⟨rest, hp, by simp [ht]⟩

/-- Settles O35: of the five effects only a command and reset touch `PAR`, and of the commands only a successful `ENCODE`. -/
theorem onlyEncodeWritesParity : Obligations.OnlyEncodeWritesParity := by
  intro s t h hne
  cases stepEffect_of_step h with
  | waits _ ht => exact absurd (by rw [ht]) hne
  | reads _ _ _ _ ht => exact absurd (by rw [ht]; rfl) hne
  | runs d rest hp hexecute =>
    obtain ⟨hok, k, cap, hd⟩ := execute_par_ne hexecute hne
    exact .inl ⟨d, rest, k, cap, hp, hd, hok⟩
  | stores _ _ _ _ _ _ ht => exact absurd (by rw [ht]; rfl) hne
  | resets rest hp _ => exact .inr ⟨rest, hp⟩

/-- Settles O36: of the five effects only a command and reset touch the registers, and of the commands only a successful field command writes
`RESULT`. -/
theorem onlyCommandsWriteRegisters : Obligations.OnlyCommandsWriteRegisters := by
  intro s t h
  cases stepEffect_of_step h with
  | waits _ ht => simp [ht]
  | reads _ _ _ _ ht => simp [ht]
  | runs d rest hp hexecute =>
    refine ⟨fun _ => .inl ⟨d, rest, hp⟩, fun hne => .inl ?_⟩
    obtain ⟨hok, a, b, hd⟩ := execute_result_ne hexecute hne
    exact ⟨d, rest, a, b, hp, hok, hd⟩
  | stores _ _ _ _ _ _ ht => simp [ht]
  | resets rest hp _ => exact ⟨fun _ => .inr ⟨rest, hp⟩, fun _ => .inr ⟨rest, hp⟩⟩

end Sys2Proof.Machine
end

section
/-! The invariant of the written cells (10_state.md R33, 60_exceptions.md R120): each update of the state keeps it. -/
namespace Sys2Proof.Machine

variable {s t : State}

theorem State.Inv.setStatus (h : s.Inv) (c : StatusCode) : (s.setStatus c).Inv := by
  obtain ⟨-, hresult, hpar, hobserved⟩ := h
  exact ⟨Cell.below_byte.mpr (Nat.lt_succ_of_le c.byte_toNat_le), hresult, hpar, hobserved⟩

theorem State.Inv.setResult (h : s.Inv) (v : Sym) : (s.setResult v).Inv := by
  obtain ⟨hstatus, -, hpar, hobserved⟩ := h
  exact ⟨hstatus, Cell.below_byte.mpr (symbol_setWidth_toNat_lt v), hpar, hobserved⟩

theorem State.Inv.setPar (h : s.Inv) (acc : Vector Sym 4) : (s.setPar acc).Inv := by
  obtain ⟨hstatus, hresult, -, hobserved⟩ := h
  refine ⟨hstatus, hresult, fun j => ?_, hobserved⟩
  rw [s.setPar_getElem acc j]
  exact Cell.below_byte.mpr (symbol_setWidth_toNat_lt acc[j])

theorem State.Inv.setMsg (h : s.Inv) (i : Fin 16) (v : Byte) : (s.setMsg i v).Inv := h

theorem State.Inv.withPending (h : s.Inv) (rest : List HostEvent) : { s with pending := rest }.Inv := h

theorem State.Inv.observe (h : s.Inv) (v : Byte) : (s.observe (v.setWidth 32)).Inv := by
  obtain ⟨hstatus, hresult, hpar, hobserved⟩ := h
  refine ⟨hstatus, hresult, hpar, ?_⟩
  rw [State.observe_observed, List.all_append, hobserved]
  simpa using byte_setWidth_toNat_lt v

theorem State.Inv.assertReset (h : s.Inv) : s.assertReset.Inv := by
  obtain ⟨-, -, -, hobserved⟩ := h
  exact ⟨rfl, rfl, by simp, hobserved⟩

theorem State.Inv.execute {d : Word} (hs : s.Inv) (h : execute d s = .next t) : t.Inv := by
  rcases execute_next h with ⟨c, -, rfl⟩ | ⟨_, v, _, rfl, -⟩ | ⟨_, _, _, _, _, _, _, rfl⟩
  · exact hs.setStatus c
  · exact (hs.setResult v).setStatus .ok
  · exact (hs.setPar _).setStatus .ok

/-- Settles O41: no cell is written and nothing has been read. -/
theorem invAtReset : Obligations.InvAtReset :=
  ⟨rfl, rfl, by simp [State.reset], rfl⟩

/-- Settles O42: each of the five effects of a step keeps the invariant. -/
theorem invStep : Obligations.InvStep := by
  intro s t hs h
  cases stepEffect_of_step h with
  | waits _ ht => rwa [ht]
  | reads _ rest v _ ht => rw [ht]; exact (hs.withPending rest).observe v
  | runs _ rest _ hexecute => exact (hs.withPending rest).execute hexecute
  | stores _ d rest i _ _ ht => rw [ht]; exact (hs.withPending rest).setMsg i (d.extractLsb' 0 8)
  | resets rest _ ht => rw [ht]; exact (hs.withPending rest).assertReset

end Sys2Proof.Machine
end

section
/-! The fault mark, and runs (10_state.md R31; 60_exceptions.md R130; 70_reset_and_hazards.md R145). -/
namespace Sys2Proof.Machine
open Sys2Proof.Spec

theorem afterStep_of_next {s t : State} (h : step s = .next t) : afterStep s = t := by
  simp [afterStep, h]

/-- The first fault sets the mark and nothing else (R31). -/
theorem afterStep_of_fault {s : State} {f : Fault} (hgood : s.fault = none) (h : step s = .fault f) :
    afterStep s = { s with fault := some f } := by
  simp [afterStep, h, State.mark, hgood]

theorem State.mark_of_marked {s : State} {f : Fault} (hf : s.fault = some f) (g : Fault) : s.mark g = s := by
  simp only [State.mark, hf]
  rw [← hf]

theorem afterStep_of_marked {s : State} {f : Fault} (hf : s.fault = some f) : afterStep s = s := by
  simp [afterStep, hf, State.mark_of_marked hf]

theorem afterSteps_of_marked {s : State} {f : Fault} (hf : s.fault = some f) (n : Nat) : afterSteps n s = s := by
  induction n with
  | zero => rfl
  | succ n ih => rw [afterSteps, afterStep_of_marked hf, ih]

/-- Settles O8: the mark by the marked state of a first fault, and by what a step from a marked state answers. -/
theorem faultMark : Obligations.FaultMark :=
  ⟨rfl, fun _ _ h hgood => afterStep_of_fault hgood h, fun _ _ hf => ⟨step_of_fault hf, afterSteps_of_marked hf⟩,
    fun _ _ => step_next_good⟩

/-- Settles O39: reset is one event of the sequence, and a marked state has no step to take it. -/
theorem resetEvent : Obligations.ResetEvent := by
  intro s rest hp
  constructor
  · intro hgood
    rw [step_cons hgood hp]
    simp [handle, State.assertReset, State.reset, hgood]
  · intro f hf
    exact afterStep_of_marked hf

theorem step_fault_and_mark {s : State} {f : Fault} (hgood : s.fault = none) (h : step s = .fault f) :
    step s = .fault f ∧ afterStep s = { s with fault := some f } := ⟨h, afterStep_of_fault hgood h⟩

/-- Settles O32: the reason is the bus's for the address, and the marked state is that of any first fault. -/
theorem busFaults : Obligations.BusFaults := by
  intro s addr d rest
  refine ⟨?_, ?_, ?_, ?_⟩
  · intro hs haddr
    have hreserved : (3 ≤ addr.toNat ∧ addr.toNat < 0x10) ∨ 0x24 ≤ addr.toNat := by omega
    rcases hs with hs | hs
    · exact step_fault_and_mark hs.1 ((step_of_nextRead hs).trans (hostRead_reserved hreserved _))
    · exact step_fault_and_mark hs.1 ((step_of_nextWrite hs).trans (hostWrite_reserved hreserved d _))
  · intro hs haddr
    exact step_fault_and_mark hs.1 ((step_of_nextWrite hs).trans (hostWrite_readOnly haddr d _))
  · rintro hs rfl
    exact step_fault_and_mark hs.1 (step_of_nextRead hs)
  · intro hs haddr hd
    obtain ⟨i, hi⟩ := exists_msg_index haddr
    refine step_fault_and_mark hs.1 ?_
    rw [step_of_nextWrite hs, hostWrite_msg hi, writeMessage_wide hd]

theorem readCell_not_refused (c : Cell) (s : State) (r : Refusal) : readCell c s ≠ .refused r := by
  cases c <;> simp

theorem hostRead_not_refused (addr : Addr) (s : State) (r : Refusal) : hostRead addr s ≠ .refused r := by
  unfold hostRead
  split
  · simp
  · exact readCell_not_refused _ s r
  · exact readCell_not_refused _ s r
  · exact readCell_not_refused _ s r
  · exact readCell_not_refused _ s r
  · simp

theorem execute_not_refused (d : Word) (s : State) (r : Refusal) : execute d s ≠ .refused r := by
  cases hd : decode d with
  | command i => rw [execute_command hd]; exact exec_not_refused i s r
  | illegal e => simp [execute_illegal hd]

theorem hostWrite_not_refused (addr : Addr) (d : Word) (s : State) (r : Refusal) : hostWrite addr d s ≠ .refused r := by
  unfold hostWrite
  split
  · exact execute_not_refused d s r
  · simp
  · simp
  · unfold writeMessage
    split <;> simp
  · simp
  · simp

/-- Every transaction has a meaning: no step is refused. -/
theorem step_not_refused (s : State) (r : Refusal) : step s ≠ .refused r := by
  cases hf : s.fault with
  | some f => simp [hf]
  | none =>
    rw [step_of_good hf, takeEvent]
    split
    · simp
    · rename_i e _ _
      cases e with
      | read addr => exact hostRead_not_refused addr _ r
      | write addr d => exact hostWrite_not_refused addr d _ r
      | reset => simp [handle]

/-- A run of `n + 1` steps is one step and a run of `n`. -/
theorem run_succ_eq_next_iff {M : Host.Core} {n : Nat} {s t : M.State} :
    M.run (n + 1) s = .next t ↔ ∃ u, M.step s = .next u ∧ M.run n u = .next t := by
  cases h : M.step s <;> simp [Host.Core.run, h]

/-- From a good state the host's run answers a next state exactly where no fault has come, and it is the state after the steps. -/
theorem run_eq_next_iff {n : Nat} {s t : State} (hs : s.Good) :
    Sys2Proof.core.run n s = .next t ↔ afterSteps n s = t ∧ t.Good := by
  induction n generalizing s with
  | zero =>
    constructor
    · rintro ⟨⟩
      exact ⟨rfl, hs⟩
    · rintro ⟨rfl, -⟩
      rfl
  | succ n ih =>
    refine run_succ_eq_next_iff.trans ?_
    change (∃ u, step s = .next u ∧ Sys2Proof.core.run n u = .next t) ↔ afterSteps n (afterStep s) = t ∧ t.Good
    cases h : step s with
    | next u =>
      obtain ⟨-, hu⟩ := step_next_good h
      rw [afterStep_of_next h, ← ih hu]
      simp
    | fault f =>
      rw [afterStep_of_fault hs h, afterSteps_of_marked rfl]
      simp only [reduceCtorEq, false_and, exists_false, false_iff, not_and]
      rintro rfl
      simp
    | refused r => exact absurd h (step_not_refused s r)

/-- A run that answers a next state has taken one transaction at each step. -/
theorem run_next_pending {n : Nat} {s t : State} (h : Sys2Proof.core.run n s = .next t) : t.pending = s.pending.drop n := by
  induction n generalizing s with
  | zero =>
    cases h
    rfl
  | succ n ih =>
    obtain ⟨u, hstep, hrun⟩ := run_succ_eq_next_iff.mp h
    rw [ih hrun, step_next_pending hstep, List.drop_tail]

theorem run_launch_eq_next_iff (program : List HostEvent) (t : State) :
    Sys2Proof.core.run program.length (State.launch program) = .next t ↔ endOfRun program = t ∧ t.Good :=
  run_eq_next_iff rfl

/-- Settles O45: the run answers its end exactly where that is good, and it has then taken every transaction. -/
theorem goodRunCompletes : Obligations.GoodRunCompletes := by
  intro program
  constructor
  · intro hgood
    have hrun := (run_launch_eq_next_iff program _).mpr ⟨rfl, hgood⟩
    exact ⟨_, hrun, rfl, (run_next_pending hrun).trans List.drop_length⟩
  · rintro ⟨t, hrun, -, -⟩
    obtain ⟨rfl, hgood⟩ := (run_launch_eq_next_iff program t).mp hrun
    exact hgood

end Sys2Proof.Machine
end

section
/-! A command word issued twice (20_memory.md R48): its effect is fixed by the message, and an effect on its own result changes nothing. -/
namespace Sys2Proof.Machine

/-- What a command does to the state. `execute_same_effect` ties it to the model. -/
inductive CommandEffect where
  | raises (c : StatusCode)
  | writesResult (v : Sym)
  | writesParity (acc : Vector Sym 4)
  | faults (f : Fault)

/-- The answer of a command with this effect. -/
def CommandEffect.answer (e : CommandEffect) (s : State) : Answer :=
  match e with
  | .raises c => raise c s
  | .writesResult v => succeed (s.setResult v)
  | .writesParity acc => succeed (s.setPar acc)
  | .faults f => .fault f

theorem CommandEffect.answer_twice {e : CommandEffect} {s t : State} (h : e.answer s = .next t) : e.answer t = .next t := by
  cases e with
  | raises c => cases h; rfl
  | writesResult v => cases h; rfl
  | writesParity acc => cases h; rfl
  | faults f => cases h

/-- Two states with the same message: the command has one effect on both. -/
theorem exec_same_effect (i : Instr) {s t : State} (hmsg : t.msg = s.msg) :
    ∃ e : CommandEffect, exec i s = e.answer s ∧ exec i t = e.answer t := by
  cases i with
  | fieldAdd m a b =>
    simp only [exec, execFieldAdd]
    repeat' split
    · exact ⟨.raises .unsupportedFieldWidth, rfl, rfl⟩
    · exact ⟨.writesResult _, rfl, rfl⟩
    · exact ⟨.raises .outOfRangeSymbol, rfl, rfl⟩
  | fieldMulGen m a j =>
    simp only [exec, execFieldMulGen]
    repeat' split
    · exact ⟨.raises .unsupportedFieldWidth, rfl, rfl⟩
    · exact ⟨.raises .outOfRangeSymbol, rfl, rfl⟩
    · exact ⟨.raises .invalidGenIndex, rfl, rfl⟩
    · exact ⟨.writesResult _, rfl, rfl⟩
  | encode m k p cap =>
    have hread : readMessage t k = readMessage s k := by rw [readMessage, hmsg, readMessage]
    simp only [exec, execEncode, hread]
    repeat' split
    · exact ⟨.raises .unsupportedFieldWidth, rfl, rfl⟩
    · exact ⟨.raises .invalidParityCount, rfl, rfl⟩
    · exact ⟨.raises .invalidShortening, rfl, rfl⟩
    · exact ⟨.raises .bufferTooSmall, rfl, rfl⟩
    · exact ⟨.faults _, rfl, rfl⟩
    · exact ⟨.raises .outOfRangeSymbol, rfl, rfl⟩
    · exact ⟨.writesParity _, rfl, rfl⟩

theorem execute_same_effect (d : Word) {s t : State} (hmsg : t.msg = s.msg) :
    ∃ e : CommandEffect, execute d s = e.answer s ∧ execute d t = e.answer t := by
  cases hd : decode d with
  | command i => simpa only [execute_command hd] using exec_same_effect i hmsg
  | illegal e => exact ⟨.raises .illegalCommand, execute_illegal hd s, execute_illegal hd t⟩

/-- Settles O29: the first run leaves the message, so the second has the same effect, and it is already there. -/
theorem commandTwice : Obligations.CommandTwice := by
  intro d s t h
  obtain ⟨hmsg, -⟩ := execute_next_frame h
  obtain ⟨e, hs, ht⟩ := execute_same_effect d hmsg
  rw [ht]
  exact e.answer_twice (hs.symm.trans h)

end Sys2Proof.Machine
end

section
/-! Host writes at every address (20_memory.md R43, R44, R47). -/
namespace Sys2Proof.Machine
open Sys2Proof.Spec

/-- A data word below 256 is stored as the byte it is. -/
theorem writeMessage_of_lt {d : Word} (hd : d.toNat < 256) (i : Fin 16) (s : State) :
    writeMessage i d s = .next (s.setMsg i (.ofNat 8 d.toNat)) := by
  have hbyte : (BitVec.ofNat 8 d.toNat).setWidth 32 = d := by bv_omega
  rw [← writeMessage_byte, hbyte]

/-- A data word of 256 or more has a bit of [31:8] set. -/
theorem writeMessage_of_ge {d : Word} (hd : 256 ≤ d.toNat) (i : Fin 16) (s : State) :
    writeMessage i d s = .fault .wideData := by
  refine writeMessage_wide (fun hzero => ?_) i s
  have hhigh : d.toNat / 256 % 2 ^ 24 = 0 := by
    simpa [Nat.shiftRight_eq_div_pow] using congrArg BitVec.toNat hzero
  omega

/-- Settles O6: the write to `CMD` executes the word, and the word decodes to the command. -/
theorem stepRunsCommand : Obligations.StepRunsCommand := by
  intro s d rest i hs hd
  rw [step_of_nextCommand hs, execute_command hd]

/-- Settles O31: the address is that of `CMD`, of a message cell, of a read-only cell, or reserved. -/
theorem hostWrites : Obligations.HostWrites := by
  intro s addr d rest hs
  refine ⟨?_, fun i hi => ⟨fun hd => ?_, fun hd => ?_⟩, ?_⟩
  · rintro rfl
    exact step_of_nextCommand hs
  · rw [step_of_nextWrite hs, hostWrite_msg hi, writeMessage_of_lt hd]
    rfl
  · rw [step_of_nextWrite hs, hostWrite_msg hi, writeMessage_of_ge hd]
  · rintro ⟨hcmd, hmsg⟩
    rw [step_of_nextWrite hs]
    split
    · next hreadOnly => exact hostWrite_readOnly hreadOnly d _
    · next hother => exact hostWrite_reserved (by bv_omega) d _

end Sys2Proof.Machine
end

section
/-! The decoder by the fields of a word (30_encoding.md R60 to R67): the four ways a word decodes, and the word of a command read back. -/
namespace Sys2Proof

/-- The word has this `OP` and 0 in `F2`, which the rows of `OP` 0x1 and 0x2 reserve (R62, R63). -/
abbrev HasOpAndZeroF2 (op : BitVec 4) (d : Word) : Prop := opField d = op ∧ f2Field d = 0#8

theorem decode_of_fieldAdd {d : Word} (h : HasOpAndZeroF2 0x1#4 d) :
    decode d = .command (.fieldAdd (mField d).toNat (f1Field d).toNat (f0Field d).toNat) := by
  obtain ⟨hop, hf2⟩ := h
  simp [decode, hop, hf2]

theorem decode_of_fieldMulGen {d : Word} (h : HasOpAndZeroF2 0x2#4 d) :
    decode d = .command (.fieldMulGen (mField d).toNat (f1Field d).toNat (f0Field d).toNat) := by
  obtain ⟨hop, hf2⟩ := h
  simp [decode, hop, hf2]

theorem decode_of_encode {d : Word} (hop : opField d = 0x3#4) :
    decode d = .command (.encode (mField d).toNat (f2Field d).toNat (f1Field d).toNat (f0Field d).toNat) := by
  simp [decode, hop]

/-- What a word can decode to, and the fields that say so. `decodesTo_of_decode` ties it to the decoder. -/
inductive DecodesTo (d : Word) : Decoded → Prop where
  | fieldAdd (h : HasOpAndZeroF2 0x1#4 d) :
      DecodesTo d (.command (.fieldAdd (mField d).toNat (f1Field d).toNat (f0Field d).toNat))
  | fieldMulGen (h : HasOpAndZeroF2 0x2#4 d) :
      DecodesTo d (.command (.fieldMulGen (mField d).toNat (f1Field d).toNat (f0Field d).toNat))
  | encode (h : opField d = 0x3#4) :
      DecodesTo d (.command (.encode (mField d).toNat (f2Field d).toNat (f1Field d).toNat (f0Field d).toNat))
  | illegal (e : DecodeError) (hadd : ¬ HasOpAndZeroF2 0x1#4 d) (hmul : ¬ HasOpAndZeroF2 0x2#4 d) (henc : opField d ≠ 0x3#4) :
      DecodesTo d (.illegal e)

theorem decodesTo_of_decode {d : Word} {r : Decoded} (h : decode d = r) : DecodesTo d r := by
  subst h
  unfold decode
  split_ifs with hadd hf2 hmul hf2 henc
  · exact .fieldAdd ⟨hadd, hf2⟩
  · exact .illegal _ (by simp [hf2]) (by simp [hf2]) (by simp [hadd])
  · exact .fieldMulGen ⟨hmul, hf2⟩
  · exact .illegal _ (by simp [hf2]) (by simp [hf2]) (by simp [hmul])
  · exact .encode henc
  · exact .illegal _ (by simp [hadd]) (by simp [hmul]) henc

/-- Settles O2: the decoder takes the row of the packed `OP`, and each operand fits the field it is packed in. -/
theorem decodeEncode : Obligations.DecodeEncode := by
  intro i hi
  cases i with
  | fieldAdd m a b =>
    rw [encode, decode_of_fieldAdd ⟨opField_packWord .., f2Field_packWord ..⟩]
    simpa using Instr.wellFormed_fieldAdd.mp hi
  | fieldMulGen m a j =>
    rw [encode, decode_of_fieldMulGen ⟨opField_packWord .., f2Field_packWord ..⟩]
    simpa using Instr.wellFormed_fieldMulGen.mp hi
  | encode m k t cap =>
    rw [encode, decode_of_encode (opField_packWord ..)]
    simpa using Instr.wellFormed_encode.mp hi

/-- Settles O3: the operands are fields, so they fit, and packing the fields of a word gives it back. -/
theorem encodeDecode : Obligations.EncodeDecode := by
  intro d i hd
  have hpack := packWord_fields d
  cases decodesTo_of_decode hd with
  | fieldAdd h =>
    obtain ⟨hop, hf2⟩ := h
    refine ⟨Instr.wellFormed_fieldAdd.mpr ⟨BitVec.isLt _, BitVec.isLt _, BitVec.isLt _⟩, ?_⟩
    simpa [encode, hop, hf2] using hpack
  | fieldMulGen h =>
    obtain ⟨hop, hf2⟩ := h
    refine ⟨Instr.wellFormed_fieldMulGen.mpr ⟨BitVec.isLt _, BitVec.isLt _, BitVec.isLt _⟩, ?_⟩
    simpa [encode, hop, hf2] using hpack
  | encode hop =>
    refine ⟨Instr.wellFormed_encode.mpr ⟨BitVec.isLt _, BitVec.isLt _, BitVec.isLt _, BitVec.isLt _⟩, ?_⟩
    simpa [encode, hop] using hpack

end Sys2Proof
end

section
/-! The rows of the opcode map (30_encoding.md R66, R70): a mask and match pair tests the fields that the decoder tests. -/
namespace Sys2Proof

variable {d : Word}

theorem packWord_inj {op m op' m' : BitVec 4} {f2 f1 f0 f2' f1' f0' : BitVec 8} :
    packWord op m f2 f1 f0 = packWord op' m' f2' f1' f0' ↔ op = op' ∧ m = m' ∧ f2 = f2' ∧ f1 = f1' ∧ f0 = f0' := by
  constructor
  · intro h
    exact ⟨by simpa using congrArg opField h, by simpa using congrArg mField h, by simpa using congrArg f2Field h,
      by simpa using congrArg f1Field h, by simpa using congrArg f0Field h⟩
  · rintro ⟨rfl, rfl, rfl, rfl, rfl⟩
    rfl

theorem and_fields (d : Word) (op m : BitVec 4) (f2 f1 f0 : BitVec 8) :
    d &&& packWord op m f2 f1 f0 =
      packWord (opField d &&& op) (mField d &&& m) (f2Field d &&& f2) (f1Field d &&& f1) (f0Field d &&& f0) := by
  rw [← Laws.RowOf.packWord_and, packWord_fields]

theorem and_0xF (x : BitVec 4) : x &&& 0xF#4 = x := BitVec.and_allOnes

theorem and_0xFF (x : BitVec 8) : x &&& 0xFF#8 = x := BitVec.and_allOnes

theorem and_F0FF_eq_iff {w : Word} {op : BitVec 4} (hw : w = packWord op 0#4 0#8 0#8 0#8) :
    d &&& 0xF0FF0000#32 = w ↔ HasOpAndZeroF2 op d := by
  rw [hw, Laws.RowOf.mask_F0FF, and_fields, packWord_inj]
  simp [and_0xF, and_0xFF]

theorem and_F000_eq_iff {w : Word} {op : BitVec 4} (hw : w = packWord op 0#4 0#8 0#8 0#8) :
    d &&& 0xF0000000#32 = w ↔ opField d = op := by
  rw [hw, Laws.RowOf.mask_F000, and_fields, packWord_inj]
  simp [and_0xF]

theorem row_fieldAdd_iff : d &&& 0xF0FF0000#32 = 0x10000000#32 ↔ HasOpAndZeroF2 0x1#4 d :=
  and_F0FF_eq_iff (by decide)

theorem row_fieldMulGen_iff : d &&& 0xF0FF0000#32 = 0x20000000#32 ↔ HasOpAndZeroF2 0x2#4 d :=
  and_F0FF_eq_iff (by decide)

theorem row_encode_iff : d &&& 0xF0000000#32 = 0x30000000#32 ↔ opField d = 0x3#4 :=
  and_F000_eq_iff (by decide)

theorem decode_isFieldAdd_iff : (∃ m a b, decode d = .command (.fieldAdd m a b)) ↔ HasOpAndZeroF2 0x1#4 d := by
  constructor
  · rintro ⟨m, a, b, hd⟩
    cases decodesTo_of_decode hd with
    | fieldAdd h => exact h
  · exact fun h => ⟨_, _, _, decode_of_fieldAdd h⟩

theorem decode_isFieldMulGen_iff : (∃ m a j, decode d = .command (.fieldMulGen m a j)) ↔ HasOpAndZeroF2 0x2#4 d := by
  constructor
  · rintro ⟨m, a, j, hd⟩
    cases decodesTo_of_decode hd with
    | fieldMulGen h => exact h
  · exact fun h => ⟨_, _, _, decode_of_fieldMulGen h⟩

theorem decode_isEncode_iff : (∃ m k t cap, decode d = .command (.encode m k t cap)) ↔ opField d = 0x3#4 := by
  constructor
  · rintro ⟨m, k, t, cap, hd⟩
    cases decodesTo_of_decode hd with
    | encode h => exact h
  · exact fun h => ⟨_, _, _, _, decode_of_encode h⟩

theorem decode_isIllegal_iff :
    (∃ e, decode d = .illegal e) ↔ ¬ HasOpAndZeroF2 0x1#4 d ∧ ¬ HasOpAndZeroF2 0x2#4 d ∧ opField d ≠ 0x3#4 := by
  constructor
  · rintro ⟨e, hd⟩
    cases decodesTo_of_decode hd with
    | illegal _ hadd hmul henc => exact ⟨hadd, hmul, henc⟩
  · rintro ⟨hadd, hmul, henc⟩
    cases hd : decode d with
    | illegal e => exact ⟨e, rfl⟩
    | command i =>
      cases decodesTo_of_decode hd with
      | fieldAdd h => exact absurd h hadd
      | fieldMulGen h => exact absurd h hmul
      | encode h => exact absurd h henc

/-- Settles O4: each pair tests the fields that the decoder tests, and two pairs ask for different values of `OP`. -/
theorem decodeByRows : Obligations.DecodeByRows := by
  intro d
  simp only [ne_eq, row_fieldAdd_iff, row_fieldMulGen_iff, row_encode_iff]
  refine ⟨decode_isFieldAdd_iff, decode_isFieldMulGen_iff, decode_isEncode_iff, decode_isIllegal_iff, ?_, ?_, ?_⟩
  · rintro ⟨⟨hadd, -⟩, hmul, -⟩
    simp [hadd] at hmul
  · rintro ⟨⟨hadd, -⟩, henc⟩
    simp [hadd] at henc
  · rintro ⟨⟨hmul, -⟩, henc⟩
    simp [hmul] at henc

/-- Settles O1: the decoder evaluated at the words of the spec. -/
theorem decodeSpecWords : Obligations.DecodeSpecWords := by
  unfold Obligations.DecodeSpecWords
  decide

theorem decodeTableWord_eq_some_iff {nbits w : Nat} {i : Instr} :
    decodeTableWord nbits w = some i ↔ decode (tableWord nbits w) = .command i := by
  unfold decodeTableWord
  cases decode (tableWord nbits w) <;> simp

end Sys2Proof
end

section
/-! Command words: where their execution faults (60_exceptions.md R127, R130), and the command of a table word as the host's next transaction. -/
namespace Sys2Proof.Machine

/-- The cells that a message read of length `k` meets are those of an index below `k` (41_encoder.md R103). -/
theorem mem_take_msg_iff {s : State} {k : Nat} {c : Cell} :
    c ∈ s.msg.toList.take k ↔ ∃ i : Fin 16, i.val < k ∧ s.msg[i] = c := by
  rw [List.mem_take_iff_getElem]
  constructor
  · rintro ⟨n, hn, hc⟩
    obtain ⟨hk, h16⟩ := Nat.lt_min.mp hn
    exact ⟨⟨n, by simpa using h16⟩, hk, by simpa using hc⟩
  · rintro ⟨i, hk, hc⟩
    exact ⟨i.val, Nat.lt_min.mpr ⟨hk, by simp⟩, by simpa using hc⟩

/-- A command word that faults is one whose command does. -/
theorem execute_fault {d : Word} {s : State} {f : Fault} (h : execute d s = .fault f) :
    ∃ i, decode d = .command i ∧ exec i s = .fault f := by
  cases hd : decode d with
  | command i => exact ⟨i, rfl, (execute_command hd s).symm.trans h⟩
  | illegal e => simp [execute_illegal hd] at h

/-- Settles O26: of the commands only `ENCODE` faults, at a cell of its message that is `⊥`. -/
theorem commandFaults : Obligations.CommandFaults := by
  refine fun d s => ⟨fun f h => ?_, execute_not_refused d s⟩
  obtain ⟨i, hd, hexec⟩ := execute_fault h
  obtain ⟨hf, k, cap, rfl, hk, hcap, hu⟩ := exec_fault hexec
  exact ⟨hf, k, cap, hd, hk, hcap, mem_take_msg_iff.mp hu⟩

/-- Settles O7: the placed write is the host's next transaction, and taking it off again leaves the state as it was. -/
theorem stepRunsFetchedWord : Obligations.StepRunsFetchedWord := by
  intro s nbits w i hgood hd
  have hnext : Spec.NextWrite (s.withFetchWord nbits w) 0x00#8 (tableWord nbits w) s.pending := ⟨hgood, rfl⟩
  exact stepRunsCommand _ _ _ i hnext (decodeTableWord_eq_some_iff.mp hd)

end Sys2Proof.Machine
end

section
/-! Host programs (30_encoding.md R69): what a command line and a `LOADMSG` line assemble to. -/
namespace Sys2Proof.Machine

/-- A command line is one write of its word where its operands fit (`p`), and is refused where one does not. -/
theorem assembleCommand_spec {i : Instr} {p : Prop} [Decidable p] (hp : i.WellFormed ↔ p) :
    if p then ∃ d, assembleCommand i = some [.write 0x00#8 d] ∧ decode d = .command i else assembleCommand i = none := by
  split
  · next h =>
    have hi := hp.mpr h
    exact ⟨encode i, if_pos hi, decodeEncode i hi⟩
  · next h => exact if_neg (mt hp.mp h)

/-- Settles O43: each command line is `assembleCommand` of its command, which is well-formed exactly where the operands fit. -/
theorem assembleCommands : Obligations.AssembleCommands :=
  ⟨fun _ _ _ => assembleCommand_spec Instr.wellFormed_fieldAdd,
    fun _ _ _ => assembleCommand_spec Instr.wellFormed_fieldMulGen,
    fun _ _ _ _ => assembleCommand_spec Instr.wellFormed_encode⟩

/-- Loading from cell `i` on is one `WMSG` line for each value, numbered from `i`. -/
theorem assembleLoad_eq_assemble (i : Nat) (vs : List Nat) :
    assembleLoad i vs = assemble (vs.mapIdx fun n v => .wmsg (i + n) v) := by
  induction vs generalizing i with
  | nil => rfl
  | cons v vs ih =>
    rw [assembleLoad, ih (i + 1), List.mapIdx_cons, assemble]
    simp only [assembleLine, Nat.add_zero, Nat.add_assoc, Nat.add_comm 1]

/-- Settles O44: `LOADMSG` loads from cell 0 on. -/
theorem assembleLoadMessage : Obligations.AssembleLoadMessage := by
  intro vs
  refine (assembleLoad_eq_assemble 0 vs).trans ?_
  simp only [Nat.zero_add]

end Sys2Proof.Machine
end

section
/-! The addition table (40_field_arith.md R80, R81, R83): `fadd` is exclusive-or, and the laws of the table are those of exclusive-or. -/
namespace Sys2Proof.Machine

/-- Every entry of `ADD_TBL`, read through `fadd`, is the exclusive-or of its row and its column (R80). -/
theorem fadd_eq_xor (a b : Sym) : fadd a b = a ^^^ b := by
  revert a b
  decide

theorem addTbl_getElem_fin (a b : Fin 16) : addTbl[a][b] = fadd (.ofFin a) (.ofFin b) := rfl

theorem addTbl_getElem_of_lt {a b : Nat} (ha : a < 16) (hb : b < 16) :
    addTbl[a][b] = fadd (.ofNat 4 a) (.ofNat 4 b) := by
  simp only [fadd, BitVec.toNat_ofNat, Nat.reducePow, Nat.mod_eq_of_lt ha, Nat.mod_eq_of_lt hb]

/-- Settles O10: `fadd` reads the table's entry, and it is exclusive-or. -/
theorem addTableIsXor : Obligations.AddTableIsXor := by
  intro a b
  rw [addTbl_getElem_fin, fadd_eq_xor]

/-- Settles O11: each law of the table is that of exclusive-or, and an entry is a symbol. -/
theorem addTableLaws : Obligations.AddTableLaws := by
  refine ⟨fun a b => (fadd a b).isLt, fun a => ?_, fun a => ?_, fun a b => ?_, fun a b c => ?_⟩
  · rw [fadd_eq_xor, BitVec.ofNat_eq_ofNat, BitVec.xor_zero]
  · rw [fadd_eq_xor, BitVec.xor_self, BitVec.ofNat_eq_ofNat]
  · rw [fadd_eq_xor, fadd_eq_xor, BitVec.xor_comm]
  · simp only [fadd_eq_xor, BitVec.xor_assoc]

end Sys2Proof.Machine
end

section
/-! The two field commands at width 4 (40_field_arith.md R82, R88): one equation for each way their operand checks can go (60_exceptions.md R127). -/
namespace Sys2Proof.Machine

/-! `FIELD_ADD` (R82) -/

theorem exec_fieldAdd_of_ge {a b : Nat} (h : 16 ≤ a ∨ 16 ≤ b) (s : State) :
    exec (.fieldAdd 4 a b) s = .next (s.setStatus .outOfRangeSymbol) := by
  rcases h with ha | hb
  · simp [exec, execFieldAdd, ha]
  · cases ha : symbol? a <;> simp [exec, execFieldAdd, ha, hb]

theorem exec_fieldAdd_of_lt {a b : Nat} (ha : a < 16) (hb : b < 16) (s : State) :
    exec (.fieldAdd 4 a b) s = .next ((s.setResult (fadd (.ofNat 4 a) (.ofNat 4 b))).setStatus .ok) := by
  simp [exec, execFieldAdd, ha, hb]

/-- Settles O14: each check in its order, and the sum is the table's entry. -/
theorem fieldAdd : Obligations.FieldAdd := by
  intro m a b s
  refine ⟨Laws.RowOf.fieldAdd m a b, fun hm => exec_fieldAdd_of_ne hm a b s, ?_, ?_⟩
  · rintro rfl hge
    exact exec_fieldAdd_of_ge hge s
  · rintro ha hb rfl
    rw [exec_fieldAdd_of_lt ha hb, addTbl_getElem_of_lt ha hb]
    rfl

/-- The exclusive-or of two symbols, as the byte that `RESULT` holds (R23). -/
theorem setWidth_xor_ofNat_of_lt {a b : Nat} (ha : a < 16) (hb : b < 16) :
    (BitVec.ofNat 4 a ^^^ BitVec.ofNat 4 b).setWidth 8 = BitVec.ofNat 8 (a ^^^ b) := by
  have hxor : a ^^^ b < 2 ^ 4 := Nat.xor_lt_two_pow ha hb
  rw [← BitVec.ofNat_xor, BitVec.setWidth_ofNat_of_le_of_lt (by decide) hxor]

/-- Settles O15: the table's entry is the exclusive-or. -/
theorem fieldAddXor : Obligations.FieldAddXor := by
  intro a b s ha hb
  rw [exec_fieldAdd_of_lt ha hb, fadd_eq_xor, State.setResult, setWidth_xor_ofNat_of_lt ha hb]
  rfl

/-! `FIELD_MUL_GEN` (R88) -/

theorem exec_fieldMulGen_of_symbol_ge {a : Nat} (ha : 16 ≤ a) (j : Nat) (s : State) :
    exec (.fieldMulGen 4 a j) s = .next (s.setStatus .outOfRangeSymbol) := by
  simp [exec, execFieldMulGen, ha]

theorem exec_fieldMulGen_of_index_ge {a j : Nat} (ha : a < 16) (hj : 4 ≤ j) (s : State) :
    exec (.fieldMulGen 4 a j) s = .next (s.setStatus .invalidGenIndex) := by
  simp [exec, execFieldMulGen, ha, hj]

theorem exec_fieldMulGen_of_lt {a j : Nat} (ha : a < 16) (hj : j < 4) (s : State) :
    exec (.fieldMulGen 4 a j) s = .next ((s.setResult (genTbl (.ofNat 4 a) ⟨j, hj⟩)).setStatus .ok) := by
  simp [exec, execFieldMulGen, ha, hj, fmulg]

/-- Settles O16: each check in its order, the product is the table's entry, and row zero of the table is zero. -/
theorem fieldMulGen : Obligations.FieldMulGen := by
  intro m a j s
  refine ⟨Laws.RowOf.fieldMulGen m a j, fun hm => exec_fieldMulGen_of_ne hm a j s, ?_, ?_, ?_, ?_⟩
  · rintro rfl ha
    exact exec_fieldMulGen_of_symbol_ge ha j s
  · rintro rfl ha hj
    exact exec_fieldMulGen_of_index_ge ha hj s
  · rintro hj rfl ha
    exact exec_fieldMulGen_of_lt ha hj s
  · rintro rfl rfl hj
    rw [exec_fieldMulGen_of_lt (by decide) hj, ← BitVec.ofNat_eq_ofNat, genTbl_zero]
    rfl

end Sys2Proof.Machine
end

section
/-! The cells of the message (41_encoder.md R103, R104): what the read of `MSG[0 … k-1]` answers. -/
namespace Sys2Proof.Machine
open Sys2Proof.Spec

variable {r s : State} {k : Nat}

theorem getElem_take_msg {n : Nat} (h : n < (s.msg.toList.take k).length) :
    (s.msg.toList.take k)[n] = s.msg[n]'(by simp at h; omega) := by
  simp

/-- The read depends on the cells below `k` alone. -/
theorem readMessage_congr (h : ∀ i : Fin 16, i.val < k → r.msg[i] = s.msg[i]) : readMessage r k = readMessage s k := by
  have htake : r.msg.toList.take k = s.msg.toList.take k := by
    refine List.ext_getElem (by simp) fun n hr hs => ?_
    obtain ⟨hk, h16⟩ : n < k ∧ n < 16 := by simpa using hr
    rw [getElem_take_msg, getElem_take_msg]
    exact h ⟨n, h16⟩ hk
  rw [readMessage, htake, readMessage]

theorem readMessage_of_unwritten (h : ∃ i : Fin 16, i.val < k ∧ s.msg[i] = .unwritten) :
    readMessage s k = .error .unwrittenRead :=
  readCells_error_iff.mpr ⟨rfl, mem_take_msg_iff.mpr h⟩

theorem readMessage_of_written (h : ∀ i : Fin 16, i.val < k → s.msg[i] ≠ .unwritten) : ∃ bytes, readMessage s k = .ok bytes := by
  cases hread : readMessage s k with
  | ok bytes => exact ⟨bytes, rfl⟩
  | error f =>
    obtain ⟨-, hmem⟩ := readCells_error_iff.mp hread
    obtain ⟨i, hi, hu⟩ := mem_take_msg_iff.mp hmem
    exact absurd hu (h i hi)

theorem mem_bytes_iff {bytes : List Byte} (h : readMessage s k = .ok bytes) {v : Byte} :
    v ∈ bytes ↔ ∃ i : Fin 16, i.val < k ∧ s.msg[i] = .byte v := by
  rw [← mem_take_msg_iff, readCells_ok_iff.mp h]
  simp

/-- A legal message is read as its symbols, in order. -/
theorem readMessage_of_holdsMessage {u : Nat → Sym} (hk : k ≤ 16) (h : HoldsMessage s k u) :
    readMessage s k = .ok (((List.range k).map u).map (·.setWidth 8)) := by
  refine readCells_ok_iff.mpr (List.ext_getElem (by simp [hk]) fun n hn _ => ?_)
  obtain ⟨hnk, h16⟩ : n < k ∧ n < 16 := by simpa using hn
  rw [getElem_take_msg]
  simpa using h ⟨n, h16⟩ hnk

end Sys2Proof.Machine
end

section
/-! The checks of `ENCODE` (41_encoder.md R101 to R104), in the order of 60_exceptions.md R127: one equation for each way they can go. -/
namespace Sys2Proof.Machine

variable {m k t cap : Nat} {r s : State}

theorem exec_encode_of_width_ne (hm : m ≠ 4) (k t cap : Nat) (s : State) :
    exec (.encode m k t cap) s = .next (s.setStatus .unsupportedFieldWidth) := by
  simp [exec, execEncode, hm]

theorem exec_encode_of_count_ne (ht : t ≠ 4) (k cap : Nat) (s : State) :
    exec (.encode 4 k t cap) s = .next (s.setStatus .invalidParityCount) := by
  simp [exec, execEncode, ht]

theorem exec_encode_of_length_gt (hk : 15 < k + 4) (cap : Nat) (s : State) :
    exec (.encode 4 k 4 cap) s = .next (s.setStatus .invalidShortening) := by
  simp [exec, execEncode, hk]

theorem exec_encode_of_capacity_lt (hk : k + 4 ≤ 15) (hcap : cap < 4) (s : State) :
    exec (.encode 4 k 4 cap) s = .next (s.setStatus .bufferTooSmall) := by
  simp [exec, execEncode, hcap, Nat.not_lt.mpr hk]

/-- The operands pass the checks before the message, or they raise one status in every state. -/
theorem exec_encode_operands (m k t cap : Nat) :
    (∃ c, c ≠ .ok ∧ ∀ s, exec (.encode m k t cap) s = .next (s.setStatus c)) ∨ (m = 4 ∧ t = 4 ∧ k ≤ 11 ∧ 4 ≤ cap) := by
  by_cases hm : m = 4
  · subst hm
    by_cases ht : t = 4
    · subst ht
      rcases Nat.lt_or_ge 15 (k + 4) with hk | hk
      · exact .inl ⟨_, by decide, exec_encode_of_length_gt hk cap⟩
      · rcases Nat.lt_or_ge cap 4 with hcap | hcap
        · exact .inl ⟨_, by decide, exec_encode_of_capacity_lt hk hcap⟩
        · exact .inr ⟨rfl, rfl, by omega, hcap⟩
    · exact .inl ⟨_, by decide, exec_encode_of_count_ne ht k cap⟩
  · exact .inl ⟨_, by decide, exec_encode_of_width_ne hm k t cap⟩

theorem exec_encode_of_read_error {f : Fault} (hk : k ≤ 11) (hcap : 4 ≤ cap) (h : readMessage s k = .error f) :
    exec (.encode 4 k 4 cap) s = .fault f := by
  refine (execEncode_accepted hk hcap).trans ?_
  simp only [h]

theorem exec_encode_of_symbols_none {bytes : List Byte} (hk : k ≤ 11) (hcap : 4 ≤ cap) (h : readMessage s k = .ok bytes)
    (hsym : symbols? bytes = none) : exec (.encode 4 k 4 cap) s = .next (s.setStatus .outOfRangeSymbol) := by
  refine (execEncode_accepted hk hcap).trans ?_
  simp only [h, hsym, raise_eq]

theorem exec_encode_of_symbols_some {bytes : List Byte} {message : List Sym} (hk : k ≤ 11) (hcap : 4 ≤ cap)
    (h : readMessage s k = .ok bytes) (hsym : symbols? bytes = some message) :
    exec (.encode 4 k 4 cap) s = .next ((s.setPar (convolve fmulg (pad 4 k 4 message))).setStatus .ok) := by
  refine (execEncode_accepted hk hcap).trans ?_
  simp only [h, hsym, succeed_eq]

/-- Settles O18: each check by its own equation; a written message with a byte of 16 or more is no list of symbols. -/
theorem encodeChecks : Obligations.EncodeChecks := by
  intro m k t cap s
  refine ⟨fun hm => exec_encode_of_width_ne hm k t cap s, ?_, ?_, ?_, ?_, ?_⟩
  · rintro rfl ht
    exact exec_encode_of_count_ne ht k cap s
  · rintro rfl rfl hk
    exact exec_encode_of_length_gt hk cap s
  · rintro rfl rfl hk hcap
    exact exec_encode_of_capacity_lt hk hcap s
  · rintro rfl rfl hk hcap hunwritten
    exact exec_encode_of_read_error (by omega) hcap (readMessage_of_unwritten hunwritten)
  · rintro rfl rfl hk hcap hwritten ⟨i, v, hi, hv, hge⟩
    obtain ⟨bytes, hread⟩ := readMessage_of_written hwritten
    have hmem : v ∈ bytes := (mem_bytes_iff hread).mpr ⟨i, hi, hv⟩
    exact exec_encode_of_symbols_none (by omega) hcap hread (symbols?_none_iff.mpr ⟨v, hmem, hge⟩)

/-- Two states that `ENCODE` reads the same message in: it faults in both, raises one status in both, or writes one parity in both. -/
theorem exec_encode_same_outcome (m t cap : Nat) (hread : readMessage r k = readMessage s k) :
    (∃ f, exec (.encode m k t cap) r = .fault f ∧ exec (.encode m k t cap) s = .fault f) ∨
    (∃ c, c ≠ .ok ∧ exec (.encode m k t cap) r = .next (r.setStatus c) ∧ exec (.encode m k t cap) s = .next (s.setStatus c)) ∨
    (∃ acc, exec (.encode m k t cap) r = .next ((r.setPar acc).setStatus .ok) ∧
      exec (.encode m k t cap) s = .next ((s.setPar acc).setStatus .ok)) := by
  obtain ⟨c, hc, hraise⟩ | ⟨rfl, rfl, hk, hcap⟩ := exec_encode_operands m k t cap
  · exact .inr (.inl ⟨c, hc, hraise r, hraise s⟩)
  cases hs : readMessage s k with
  | error f =>
    exact .inl ⟨f, exec_encode_of_read_error hk hcap (hread.trans hs), exec_encode_of_read_error hk hcap hs⟩
  | ok bytes =>
    have hr : readMessage r k = .ok bytes := hread.trans hs
    cases hsym : symbols? bytes with
    | none =>
      exact .inr (.inl ⟨.outOfRangeSymbol, by decide, exec_encode_of_symbols_none hk hcap hr hsym,
        exec_encode_of_symbols_none hk hcap hs hsym⟩)
    | some message =>
      exact .inr (.inr ⟨_, exec_encode_of_symbols_some hk hcap hr hsym, exec_encode_of_symbols_some hk hcap hs hsym⟩)

/-- Settles O24: the read of the message is the same, so the outcome is. -/
theorem encodeReadsItsMessageOnly : Obligations.EncodeReadsItsMessageOnly := by
  intro m k t cap r s hagree
  obtain ⟨f, hr, hs⟩ | ⟨c, hc, hr, hs⟩ | ⟨acc, hr, hs⟩ := exec_encode_same_outcome m t cap (readMessage_congr hagree)
  · rw [hr, hs]
    simp
  · rw [hr, hs]
    refine ⟨by simp, ?_⟩
    rintro _ ⟨⟩
    exact ⟨_, rfl, rfl, fun hok => absurd hok (setStatus_status_ne_zero hc r)⟩
  · rw [hr, hs]
    refine ⟨by simp, ?_⟩
    rintro _ ⟨⟩
    exact ⟨_, rfl, rfl, fun _ => rfl⟩

end Sys2Proof.Machine
end

section
/-! The shift-register convolution (41_encoder.md R105 to R108), as a recurrence over the number of symbols taken. -/
namespace Sys2Proof.Machine
open Sys2Proof.Spec

/-- The accumulator of the block after the symbols `u 0 … u (n - 1)`. -/
def parity (u : Nat → Sym) (n : Nat) (j : Fin 4) : Sym := (convolve fmulg ((List.range n).map u))[j]

/-- The symbol sequence of `u` behind `z` zeros (R105, item 2). -/
def padded (z : Nat) (u : Nat → Sym) (n : Nat) : Sym := if n < z then 0 else u (n - z)

/-- All positions are updated at once (R105, the note on step 4c). -/
theorem shiftIn_getElem (acc : Vector Sym 4) (x : Sym) (j : Fin 4) :
    (shiftIn fmulg acc x)[j] = (if h : j.val + 1 < 4 then acc[j.val + 1] else 0) ^^^ genTbl (x ^^^ acc[0]) j := by
  fin_cases j <;> simp [shiftIn, fadd_eq_xor, fmulg]

/-- Row zero of the product table (R6, constraint 3), with its zeros as `simp` writes them. -/
@[simp] theorem genTbl_ofNat_zero (j : Fin 4) : genTbl 0#4 j = 0#4 := genTbl_zero j

/-- A zero symbol leaves the accumulator all zero (R107). -/
theorem shiftIn_zeroAcc : shiftIn fmulg zeroAcc 0 = zeroAcc := by
  simp [shiftIn, zeroAcc, fadd_eq_xor, fmulg]

theorem convolve_concat (gen : Sym → Fin 4 → Sym) (l : List Sym) (x : Sym) :
    convolve gen (l ++ [x]) = shiftIn gen (convolve gen l) x := by
  simp [convolve]

variable (u v : Nat → Sym) (n : Nat) (j : Fin 4)

@[simp] theorem parity_zero : parity u 0 j = 0 := by
  fin_cases j <;> rfl

theorem parity_succ : parity u (n + 1) j =
    (if h : j.val + 1 < 4 then parity u n ⟨j.val + 1, h⟩ else 0) ^^^ genTbl (u n ^^^ parity u n 0) j := by
  rw [parity, List.range_succ, List.map_append]
  exact (congrArg (·[j]) (convolve_concat fmulg _ (u n))).trans (shiftIn_getElem _ (u n) j)

theorem isConvolution_parity : IsConvolution genTbl u n (parity u n) :=
  ⟨parity u, parity_zero u, fun i _ => parity_succ u i, fun _ => rfl⟩

/-- Zero symbols leave the accumulator zero, since row zero of the product table is. -/
theorem parity_of_zeros {u : Nat → Sym} {n : Nat} (h : ∀ i, i < n → u i = 0) (j : Fin 4) : parity u n j = 0 := by
  induction n generalizing j with
  | zero => exact parity_zero u j
  | succ n ih =>
    have hprev : ∀ j, parity u n j = 0 := ih fun i hi => h i (by omega)
    rw [parity_succ, h n (by omega)]
    simp [hprev]

/-- Leading zeros do not count (R107). -/
theorem parity_padded (z : Nat) : parity (padded z u) (z + n) = parity u n := by
  induction n with
  | zero => exact funext fun j => (parity_of_zeros (fun i hi => if_pos hi) j).trans (parity_zero u j).symm
  | succ n ih =>
    have hsymbol : padded z u (z + n) = u n := by simp [padded]
    funext j
    rw [← Nat.add_assoc, parity_succ, parity_succ, hsymbol, ih]

/-- The convolution is linear, since the product table is (R108). -/
theorem parity_xor : parity (fun i => u i ^^^ v i) n j = parity u n j ^^^ parity v n j := by
  induction n generalizing j with
  | zero => simp
  | succ n ih =>
    have hfeedback : u n ^^^ v n ^^^ (parity u n 0 ^^^ parity v n 0) = u n ^^^ parity u n 0 ^^^ (v n ^^^ parity v n 0) := by
      ac_rfl
    simp only [parity_succ, ih, hfeedback, genTbl_xor]
    split
    · ac_rfl
    · simp

/-- One symbol (R110). -/
theorem parity_one : parity u 1 j = genTbl (u 0) j := by
  simp [parity_succ]

/-- Two symbols (R110). -/
theorem parity_two : parity u 2 j =
    if h : j.val + 1 < 4 then genTbl (u 0) ⟨j.val + 1, h⟩ ^^^ genTbl (u 1 ^^^ genTbl (u 0) 0) j
    else genTbl (u 1 ^^^ genTbl (u 0) 0) j := by
  rw [parity_succ]
  simp only [parity_one]
  split <;> simp

end Sys2Proof.Machine
end

section
/-! `ENCODE` of a legal message (41_encoder.md R105 to R110): its parity is the convolution's. -/
namespace Sys2Proof.Machine
open Sys2Proof.Spec

variable {k cap : Nat} {u : Nat → Sym} {s : State}

/-- The sequence `padded z u`, taken up to `k` symbols of `u`, is `z` zeros and then these symbols. -/
theorem map_padded_range (z k : Nat) (u : Nat → Sym) :
    (List.range (z + k)).map (padded z u) = List.replicate z 0 ++ (List.range k).map u := by
  have hzeros : (List.range z).map (padded z u) = List.replicate z 0 := by
    rw [List.eq_replicate_iff]
    simp +contextual [padded]
  have hmessage : padded z u ∘ (z + ·) = u := funext fun i => by simp [padded]
  rw [List.range_add, List.map_append, List.map_map, hzeros, hmessage]

/-- The padded message of `ENCODE` (R105, items 1 and 2). -/
theorem pad_eq_map_padded (k : Nat) (u : Nat → Sym) :
    pad 4 k 4 ((List.range k).map u) = (List.range (15 - (k + 4) + k)).map (padded (15 - (k + 4)) u) :=
  (map_padded_range (15 - (k + 4)) k u).symm

/-- The parity of a legal message is the convolution of the padded message (R105, R106). -/
theorem exec_encode_of_holdsMessage (hk : k ≤ 11) (hcap : 4 ≤ cap) (h : HoldsMessage s k u) :
    exec (.encode 4 k 4 cap) s = .next
      { s with par := parityCells (parity (padded (15 - (k + 4)) u) (15 - (k + 4) + k)), status := .byte 0x00#8 } := by
  have hread := readMessage_of_holdsMessage (by omega) h
  rw [exec_encode_of_symbols_some hk hcap hread (symbols?_some_iff.mpr rfl), pad_eq_map_padded]
  rfl

/-- The padding does not count (R107). -/
theorem exec_encode_unpadded (hk : k ≤ 11) (hcap : 4 ≤ cap) (h : HoldsMessage s k u) :
    exec (.encode 4 k 4 cap) s = .next { s with par := parityCells (parity u k), status := .byte 0x00#8 } := by
  rw [exec_encode_of_holdsMessage hk hcap h, parity_padded]

/-- Settles O19: the parity that `ENCODE` writes is the accumulator after the padded message. -/
theorem encodeComputes : Obligations.EncodeComputes := by
  intro k cap u s hk hcap h
  exact ⟨_, isConvolution_parity _ _, exec_encode_of_holdsMessage hk hcap h⟩

/-- Settles O20: the padding makes 11 symbols, and each of its zeros leaves the accumulator as it starts. -/
theorem encodePadding : Obligations.EncodePadding := by
  refine ⟨fun k message hk hlength => ?_, shiftIn_zeroAcc, fun k cap u s hk hcap h => ?_⟩
  · rw [pad, List.length_append, List.length_replicate, hlength]
    omega
  · exact ⟨_, isConvolution_parity u k, exec_encode_unpadded hk hcap h⟩

/-- Settles O21: the recurrence evaluated for one and for two symbols. -/
theorem encodeShortMessages : Obligations.EncodeShortMessages := by
  refine ⟨fun a s ha => ?_, fun a b s ha hb => ?_⟩
  · have hmessage : HoldsMessage s 1 (fun _ => a) := by
      intro i hi
      obtain rfl : i = 0 := by omega
      exact ha
    rw [exec_encode_unpadded (by decide) (by decide) hmessage, funext (parity_one _)]
  · have hmessage : HoldsMessage s 2 (fun n => if n = 0 then a else b) := by
      intro i hi
      obtain rfl | rfl : i = 0 ∨ i = 1 := by omega
      · exact ha
      · exact hb
    rw [exec_encode_unpadded (by decide) (by decide) hmessage, funext (parity_two _)]
    rfl

/-- Settles O22: zero symbols leave the accumulator zero. -/
theorem encodeZeroMessage : Obligations.EncodeZeroMessage := by
  intro k cap s hk hcap h
  rw [exec_encode_unpadded hk hcap h, funext (parity_of_zeros fun _ _ => rfl)]
  rfl

/-- Settles O23: the convolution is linear. -/
theorem encodeLinear : Obligations.EncodeLinear := by
  intro k u v r s t hk hr hs ht
  have hcap : 4 ≤ 4 := Nat.le_refl 4
  refine ⟨parity u k, parity v k, exec_encode_unpadded hk hcap hr, exec_encode_unpadded hk hcap hs, ?_⟩
  rw [exec_encode_unpadded hk hcap ht, funext (parity_xor u v k)]

end Sys2Proof.Machine
end

section
/-! Illegal words and failed commands (30_encoding.md R67; 60_exceptions.md R126, R128). -/
namespace Sys2Proof.Machine

/-- The rows of the opcode map, and the reserved values of `OP` below and above them (R66, R67). -/
theorem op_cases : ∀ op : BitVec 4, op = 0x0#4 ∨ op = 0x1#4 ∨ op = 0x2#4 ∨ op = 0x3#4 ∨ 0x4#4 ≤ op := by
  decide

/-- The words outside the three rows of the opcode map are the two kinds that R67 lists. -/
theorem outside_rows_iff {d : Word} :
    (¬ HasOpAndZeroF2 0x1#4 d ∧ ¬ HasOpAndZeroF2 0x2#4 d ∧ opField d ≠ 0x3#4) ↔
      opField d = 0x0#4 ∨ 0x4#4 ≤ opField d ∨ ((opField d = 0x1#4 ∨ opField d = 0x2#4) ∧ f2Field d ≠ 0x00#8) := by
  rcases op_cases (opField d) with hop | hop | hop | hop | hop
  · simp [hop]
  · simp [hop]
  · simp [hop]
  · simp [hop]
  · have hrow : ∀ op : BitVec 4, op < 0x4#4 → opField d ≠ op := by
      rintro op hlt rfl
      exact BitVec.not_lt.mpr hop hlt
    simp [hop, hrow 0x1#4 (by decide), hrow 0x2#4 (by decide), hrow 0x3#4 (by decide)]

/-- Settles O5: the illegal words are those outside the rows, and each raises `ILLEGAL_COMMAND`. -/
theorem illegalWords : Obligations.IllegalWords := by
  refine fun d s => ⟨decode_isIllegal_iff.trans outside_rows_iff, ?_⟩
  rintro ⟨e, hd⟩
  exact execute_illegal hd s

/-- Settles O27: a command that leaves a status other than 0 has raised it, and so has written nothing else. -/
theorem failedCommandPrecise : Obligations.FailedCommandPrecise := by
  intro d s t h hfailed
  rcases execute_next h with ⟨c, -, rfl⟩ | ⟨_, _, _, rfl, -⟩ | ⟨_, _, _, _, _, _, _, rfl⟩
  · rfl
  · exact absurd rfl hfailed
  · exact absurd rfl hfailed

end Sys2Proof.Machine
end

section
/-! Reset and waiting (70_reset_and_hazards.md R140, R143). -/
namespace Sys2Proof.Machine

theorem step_nil {s : State} (hgood : s.fault = none) (hp : s.pending = []) : step s = .next s := by
  rw [step_of_good hgood, takeEvent, hp]

theorem State.reset_msg_getElem (i : Fin 16) : State.reset.msg[i] = .unwritten := by
  simp [State.reset]

theorem State.reset_par_getElem (j : Fin 4) : State.reset.par[j] = .unwritten := by
  simp [State.reset]

/-- Settles O9: a good state with an empty sequence takes no event. -/
theorem waitsForHost : Obligations.WaitsForHost := fun _ => step_nil

/-- Settles O38: the cells and the mark by the literal reset state, `ADD_TBL` by `fadd_eq_xor`, `GEN_TBL` by its definition. -/
theorem resetState : Obligations.ResetState :=
  ⟨rfl, rfl, State.reset_msg_getElem, State.reset_par_getElem, rfl, fadd_eq_xor, fun _ _ => rfl⟩

end Sys2Proof.Machine
end
